-- ==== Sys2Proof/Word.lean ====
section
/-! DEFINITION. The word types of the block, one for each format of `spec/30_encoding.md`, and the numbers whose
width is an argument of the instance. -/

namespace Sys2Proof

/-- A selector byte (format SEL8, R53) or an atlas byte (format ATLAS8, R55). -/
abbrev Byte := BitVec 8

/-- One pixel row of a glyph (format NIB4, R56), and the halves `upper` and `lower` of a selector byte (R53). -/
abbrev Nib := BitVec 4

/-- A 21-bit instruction word (format CHAR21, R51). -/
abbrev Char21 := BitVec 21

/-- An atlas byte address (format OFF10, R54). -/
abbrev Offset := BitVec 10

/-- A cursor coordinate: the signed integer that COORD_W bits hold in two's complement (R9, R19). COORD_W is an argument
of the instance (D2), so the width is no part of the type; `Machine.narrow` brings a sum back into it. -/
abbrev Coord := Int

/-- A colour: the number COLOR_W bits hold, never computed on (R10). COLOR_W is an argument of the instance (D4). -/
abbrev Colour := Nat

/-- The GlyphBitmap (format BM8x4, R57): eight row nibbles, row 0 at the top. -/
abbrev Bitmap := Vector Nib 8

end Sys2Proof
end

