-- ==== Sys2Proof/Config.lean ====
section
/-! DEFINITION. What an implementation fixes: the glyph geometry (R5, R6), the configuration inputs of one instance of
the block (R23), and the values the spec leaves open, as constants without a body. -/

namespace Sys2Proof

/-- WIDTH: pixel columns of a glyph cell (R5). -/
def Config.width : Nat := 4

/-- HEIGHT: pixel rows of a glyph cell (R5). -/
def Config.height : Nat := 8

/-- GRID_COLS: glyph cells in one grid row of the atlas (R5). -/
def Config.gridCols : Nat := 16

/-- ROW_BYTES: bytes of one horizontal strip of all sixteen columns, one pixel row tall (R6). -/
def Config.rowBytes : Nat := Config.width * Config.gridCols / 8

/-- ATLAS_LEN of this hardware (R7). -/
def Config.fullAtlas : Nat := 1024

@[simp] theorem Config.width_eq : Config.width = 4 := rfl
@[simp] theorem Config.height_eq : Config.height = 8 := rfl
@[simp] theorem Config.gridCols_eq : Config.gridCols = 16 := rfl
@[simp] theorem Config.rowBytes_eq : Config.rowBytes = 8 := rfl
@[simp] theorem Config.fullAtlas_eq : Config.fullAtlas = 1024 := rfl

/-- DOMAIN_POLICY (R11): what a character outside U+0000 to U+007F does. -/
inductive DomainPolicy where
  /-- The character raises UnsupportedCharacter (the default). -/
  | reject
  /-- The character is mapped by its first UTF-8 code unit. -/
  | leadingByte
  deriving DecidableEq, Repr

/-- SurfErr (R12): the surface's opaque error. The block never inspects `tag`; it tells payloads apart only for the
host (log 9). -/
structure SurfErr where
  tag : Nat
  deriving DecidableEq, Repr, Inhabited

/-- What the surface does with one fill command: the response of R42, or no response at all (U9). -/
inductive Answer where
  | ok
  | err (e : SurfErr)
  /-- The surface never answers this command: the call hangs (R135, U9). -/
  | never
  deriving DecidableEq, Repr, Inhabited

/-- The configuration inputs of one instance of the block (R23): read by the block, written by no operation. -/
structure BlockConfig where
  /-- COORD_W, the width of a coordinate (R9, D2). -/
  coordW : Nat
  /-- COLOR_W, the width of a colour (R10, D4). -/
  colorW : Nat
  /-- SCALE (R8). -/
  scale : Nat
  /-- FG, the foreground colour (R10). -/
  fg : Colour
  /-- DOMAIN_POLICY (R11). -/
  policy : DomainPolicy
  /-- ATLAS_LEN (R7): 1024 on this hardware, less only to exercise the bounds rule R72. -/
  atlasLen : Fin 1025
  /-- SCALE is legal: at least 1, and HEIGHT * SCALE below 2^(COORD_W-1). SCALE = 0 has no meaning (R8, U12); such an
  instance does not exist here (log 5). -/
  scaleLegal : 1 ≤ scale ∧ 8 * scale < 2 ^ (coordW - 1)
  /-- FG has COLOR_W bits (R10). -/
  fgFits : fg < 2 ^ colorW
  deriving DecidableEq, Repr

/-- FREE VALUE. FG of the instance at reset, a colour of the default width: open in the spec (R10; log 3). -/
opaque Config.foreground : BitVec 16

/-- FREE VALUE. CX at launch, a coordinate of the default width: the launch state is a pair (x0, y0) that every claim
quantifies over (R28, D11; log 1). -/
opaque Config.launchX : BitVec 32

/-- FREE VALUE. CY at launch (R28, D11; log 1). -/
opaque Config.launchY : BitVec 32

/-- FREE VALUE. The bytes of the font resource that no image lists: ATLAS is an open parameter (R13; log 4). -/
opaque Config.fontByte : Nat → Byte

/-- FREE VALUE. The surface's answer to the n-th fill for which the state lists no answer (R17, R135; log 7). -/
opaque Config.surfaceAnswer : Nat → Answer

/-- FREE VALUE. What GR.ADDR gives when start_offset + 8*i does not fit the ten bits of OFF10, which no start_offset of
GI.INDEX brings about: the spec states no result there (R77, R54; log 15). -/
opaque Config.addrBeyond : Offset → Fin 8 → Offset

/-- FREE VALUE. What a pixel of the rectangle of a fill that was not answered Ok holds afterwards on the reference surface:
any value (R45, U2; log 22). `surface` numbers the surface and its run, `fill` the command in the trace. -/
opaque Config.failedFillPixel (surface fill : Nat) (px py : Int) : Nat

/-- FREE VALUE. The payload of UnsupportedCharacter when GI.BOUNDS fails while no character is being looked up, for
which the spec states no payload (R72; log 16). -/
opaque Config.strayCharacter : Char21

end Sys2Proof
end

