-- ==== Sys2Proof/Machine/Operands.lean ====
section
/-! DEFINITION. The pure operand functions of the four sub-units, each a function of its operands alone: the selector
byte and the atlas offset (GI), the row address, the nibble and the bitmap (GR), the pixel test and the rectangle
(BC), and the coordinate sum (R90). -/

namespace Sys2Proof.Machine

/-! ## Characters -/

/-- A 21-bit word is a Unicode scalar value: at most 0x10FFFF and no surrogate (R51, R58). -/
def isScalar (c : Char21) : Bool :=
  decide (c.toNat < 0xD800) || (decide (0xDFFF < c.toNat) && decide (c.toNat ≤ 0x10FFFF))

/-! ## The glyph indexer -/

/-- GI.SEL: the first UTF-8 code unit of a character (R52, R67). -/
def selector (c : Char21) : Byte :=
  if c.toNat ≤ 0x7F then c.extractLsb' 0 8
  else if c.toNat ≤ 0x7FF then 0xC0#8 + (c.extractLsb' 6 5).setWidth 8
  else if c.toNat ≤ 0xFFFF then 0xE0#8 + (c.extractLsb' 12 4).setWidth 8
  else 0xF0#8 + (c.extractLsb' 18 3).setWidth 8

/-- GI.SPLIT, first result: the grid row `sel[7:4]` (R69). -/
def upperOf (sel : Byte) : Nib := (sel >>> 4).setWidth 4

/-- GI.SPLIT, second result: the grid column `sel[3:0]` (R69). -/
def lowerOf (sel : Byte) : Nib := (sel &&& 0xF#8).setWidth 4

/-- GI.INDEX: ROW_BYTES * HEIGHT * upper + (WIDTH * lower) div 8, computed on naturals (R70, R74, D9). -/
def startOffsetOf (upper lower : Nib) : Offset :=
  BitVec.ofNat 10
    (Config.rowBytes * Config.height * upper.toNat + Config.width * lower.toNat / 8)

/-- A value in the start_offset form of OFF10: bits 5..3 are zero (R54). -/
def isStartOffset (off : Offset) : Bool := off.extractLsb' 3 3 == 0#3

/-! ## The glyph rasterizer -/

/-- The atlas address of pixel row `i` as a natural number, exact (R77, R74). -/
def rowAddr (off : Offset) (i : Fin 8) : Nat := off.toNat + i.val * Config.rowBytes

/-- GR.ADDR: the row address in ten bits; a sum that does not fit them is a free value (R77, R54; log 15). -/
def rowAddrOf (off : Offset) (i : Fin 8) : Offset :=
  if rowAddr off i < 1024 then BitVec.ofNat 10 (rowAddr off i) else Config.addrBeyond off i

/-- GR.NIB: the high nibble for even parity, the low one for odd (R79). -/
def nibble (b : Byte) (par : Bool) : Nib :=
  if par then b.extractLsb' 0 4 else b.extractLsb' 4 4

/-- GR.RASTER: one nibble from each of the eight bytes read (R80). `rd` reads one atlas byte. -/
def raster (rd : Nat → Byte) (off : Offset) (par : Bool) : Bitmap :=
  Vector.ofFn fun i => nibble (rd (rowAddr off i)) par

/-- MASK32 (R57): the rows of a bitmap side by side, row 0 on top. -/
def mask32 (bm : Bitmap) : BitVec 32 :=
  bm[0] ++ bm[1] ++ bm[2] ++ bm[3] ++ bm[4] ++ bm[5] ++ bm[6] ++ bm[7]

/-! ## The blitter and the cursor -/

/-- BC.TEST: column 0 is the most significant bit (R84, R56). -/
def testBit (n : Nib) (j : Fin 4) : Bool := n.getLsbD (Config.width - 1 - j.val)

/-- The value of the low `w` bits of an integer in two's complement: a coordinate of COORD_W = `w` (R9, R90). -/
def narrow (w : Nat) (v : Int) : Coord := Int.bmod v (2 ^ w)

/-- The sum `+c` of R90: addition of a non-negative integer modulo 2^w on two's complement values. -/
def coordAdd (w : Nat) (a : Coord) (n : Nat) : Coord := narrow w (a + n)

/-- CA.ADVANCE's sum: WIDTH * SCALE is added (R96). -/
def advanceX (w scale : Nat) (x : Coord) : Coord := coordAdd w x (Config.width * scale)

/-- The pixels of a glyph in the blitter's scan order: rows top to bottom, in a row columns left to right (R87). -/
def scan : List (Fin 8 × Fin 4) :=
  [0, 1, 2, 3, 4, 5, 6, 7].flatMap fun i => [0, 1, 2, 3].map fun j => (i, j)

end Sys2Proof.Machine
end

