-- ==== Sys2Proof/Machine/Flags.lean ====
section
/-! DEFINITION. The one flag of the block, the nibble parity (R22), and its two checks: the domain check (R68) and the
bounds check (R72). The block has no other flag, condition code or status bit (R22, R23). -/

namespace Sys2Proof.Machine

/-- GI.PAR: the parity of the grid column; false is even (high nibble), true is odd (low nibble) (R71, R22). -/
def parity (lower : Nib) : Bool := lower.getLsbD 0

/-- GI.DOMAIN passes: in the domain, or the policy maps by the leading byte (R68). -/
def domainOk (policy : DomainPolicy) (c : Char21) : Bool :=
  decide (c.toNat ≤ 0x7F) || decide (policy = .leadingByte)

/-- The highest atlas address a glyph at `off` reads (R72). -/
def lastRead (off : Offset) : Nat := off.toNat + (Config.height - 1) * Config.rowBytes

/-- GI.BOUNDS passes: the highest address read lies in the atlas (R72, C2, D8). -/
def boundsOk (atlasLen : Nat) (off : Offset) : Bool := decide (lastRead off < atlasLen)

/-- GI.LOOKUP: both checks, then the offset and the parity; none is UnsupportedCharacter (R73). -/
def lookup (cfg : BlockConfig) (c : Char21) : Option (Offset × Bool) :=
  if domainOk cfg.policy c then
    let sel := selector c
    let off := startOffsetOf (upperOf sel) (lowerOf sel)
    if boundsOk cfg.atlasLen off then some (off, parity (lowerOf sel)) else none
  else none

end Sys2Proof.Machine
end

