-- ==== Sys2Proof/Syntax.lean ====
section
/-! DEFINITION. The instructions: one constructor for each row of `spec/opcode_table.json`, in the table's order. -/

namespace Sys2Proof

/-- The operations of the block. The first seven rows are the CHAR21 instruction words with the fields the table
gives each class (R51, R52, R58); the next four are the rows with a bit format of their own (R53 to R56); the rest
are the abstract operations (R62) with the operands the table lists. -/
inductive Instr where
  /-- PUTC of a character U+0000 to U+007F: c = {u, l} (class U1 of R52). -/
  | putcU1 (u : BitVec 3) (l : Nib)
  /-- PUTC of a character U+0080 to U+07FF: c = {top, low} (class U2). -/
  | putcU2 (top : BitVec 5) (low : BitVec 6)
  /-- A word U+D800 to U+DFFF, which is no scalar value (R58). -/
  | illegalSurrogate (low : BitVec 11)
  /-- PUTC of a character U+0800 to U+FFFF outside the surrogates: c = {top, low} (class U3). -/
  | putcU3 (top : BitVec 4) (low : BitVec 12)
  /-- PUTC of a character U+10000 to U+FFFFF: c = {0, top, low} (class U4, c below 0x100000). -/
  | putcU4Low (top : BitVec 2) (low : BitVec 18)
  /-- PUTC of a character U+100000 to U+10FFFF: c = {10000, low} (class U4, the rest). -/
  | putcU4High (low : BitVec 16)
  /-- A word above 0x10FFFF, which is no scalar value (R58). -/
  | illegalAbove (word : Char21)
  /-- GI.SPLIT (R69). -/
  | giSplit (sel : Byte)
  /-- GR.ADDR (R77). -/
  | grAddr (startOffset : Offset) (i : Fin 8)
  /-- GR.NIB (R79); `par` is true for odd parity. -/
  | grNib (b : Byte) (par : Bool)
  /-- BC.TEST (R84). -/
  | bcTest (n : Nib) (j : Fin 4)
  /-- INIT (R95). -/
  | init (x0 y0 : Coord)
  /-- DRAW (R98). -/
  | draw (str : List Char21)
  /-- GETPOS (R100). -/
  | getpos
  /-- GI.SEL (R67). -/
  | giSel (c : Char21)
  /-- GI.DOMAIN (R68). -/
  | giDomain (c : Char21)
  /-- GI.INDEX (R70). -/
  | giIndex (upper lower : Nib)
  /-- GI.PAR (R71). -/
  | giPar (lower : Nib)
  /-- GI.BOUNDS (R72). -/
  | giBounds (startOffset : Offset)
  /-- GI.LOOKUP (R73). -/
  | giLookup (c : Char21)
  /-- GR.LOAD (R78). -/
  | grLoad (a : Offset)
  /-- GR.RASTER (R80). -/
  | grRaster (startOffset : Offset) (par : Bool)
  /-- BC.RECT (R85). -/
  | bcRect (ox oy : Coord) (i : Fin 8) (j : Fin 4)
  /-- BC.FILL (R86). -/
  | bcFill (x y : Coord) (w h : Nat)
  /-- BC.BLIT (R87). -/
  | bcBlit (bm : Bitmap) (ox oy : Coord)
  /-- CA.ADVANCE (R96). -/
  | caAdvance
  deriving DecidableEq, Repr

/-- The operations of the sub-units GI, GR and BC. The spec's examples and test vectors invoke them directly (R70, R80,
`95_test_vectors.md`); the words, the host operations and CA.ADVANCE, which only PUTC invokes (R96), are not among
them. -/
def Instr.isDirect : Instr → Bool
  | .giSplit _ | .grAddr _ _ | .grNib _ _ | .bcTest _ _ | .giSel _ | .giDomain _ | .giIndex _ _ | .giPar _ | .giBounds _
  | .giLookup _ | .grLoad _ | .grRaster _ _ | .bcRect _ _ _ _ | .bcFill _ _ _ _ | .bcBlit _ _ _ => true
  | .putcU1 _ _ | .putcU2 _ _ | .illegalSurrogate _ | .putcU3 _ _ | .putcU4Low _ _ | .putcU4High _ | .illegalAbove _
  | .init _ _ | .draw _ | .getpos | .caAdvance => false

end Sys2Proof
end

