-- ==== Sys2Proof/Machine/State.lean ====
section
/-! DEFINITION. The state of the block and of its ports, as plain data: the cursor (R18, R19), the render call in
progress (R20, R21, R27), the configuration inputs of the instance (R23), the atlas (R32), and what the block
exchanges with its environment (R16, R17, R24). -/

namespace Sys2Proof.Machine

/-! ## Data -/

/-- A rectangle: the pixels px, py with x <= px < x + w and y <= py < y + h (R42, R85). -/
structure Rect where
  x : Coord
  y : Coord
  w : Nat
  h : Nat
  deriving DecidableEq, Repr

/-- A fill command: a rectangle and its solid colour (R42). -/
structure FillCmd where
  rect : Rect
  col : Colour
  deriving DecidableEq, Repr

/-- One entry of the command trace: a command and the answer it got (R16). -/
structure FillRecord where
  cmd : FillCmd
  answer : Answer
  deriving DecidableEq, Repr

/-- The two exceptions of the block with their payloads (R109). -/
inductive Exc where
  /-- Code 1: the domain check or the bounds check failed for this character (R110). -/
  | unsupportedCharacter (c : Char21)
  /-- Code 2: a fill was answered with this error (R111). -/
  | surfaceWriteFailure (e : SurfErr)
  deriving DecidableEq, Repr

/-- What a host operation returns (R24). -/
inductive Reply where
  /-- INIT returns nothing. -/
  | nothing
  /-- DRAW or PUTC completed. -/
  | ok
  /-- DRAW or PUTC raised an exception. -/
  | err (x : Exc)
  /-- GETPOS returns the cursor. -/
  | pos (x y : Coord)
  deriving DecidableEq, Repr

/-- The host's moves (R137), with a character as the raw 21-bit word it is presented as (R58). -/
inductive Request where
  /-- INIT (R95). -/
  | init (x0 y0 : Coord)
  /-- DRAW (R98). -/
  | draw (str : List Char21)
  /-- PUTC (R97). -/
  | putc (word : Char21)
  /-- GETPOS (R100). -/
  | getpos
  deriving DecidableEq, Repr

/-- The atlas bytes an image lists, by address: strictly rising, below 1024, none equal to what an unlisted address
reads as. -/
abbrev Memory := List Host.Cell

/-- The transient values of one character (R21, R22). Each exists only while a character is processed, so each is
optional: none says that it does not exist (R28). -/
structure Transient where
  ch : Option Char21
  sel : Option Byte
  upper : Option Nib
  lower : Option Nib
  startOffset : Option Offset
  par : Option Bool
  addr : Option Offset
  byte : Option Byte
  nib : Option Nib
  bm : Option Bitmap
  i : Option (Fin 8)
  j : Option (Fin 4)
  bit : Option Bool
  ox : Option Coord
  oy : Option Coord
  rect : Option Rect
  deriving DecidableEq, Repr

/-- No transient value exists: the block is between characters. -/
def Transient.empty : Transient :=
  { ch := none, sel := none, upper := none, lower := none, startOffset := none, par := none, addr := none,
    byte := none, nib := none, bm := none, i := none, j := none, bit := none, ox := none, oy := none, rect := none }

/-! ## The state -/

/-- The machine. -/
structure State where
  /-- The configuration inputs (R23); no operation writes them. -/
  cfg : BlockConfig
  /-- ATLAS (R32); no operation writes it (R40). -/
  atlas : Memory
  /-- The block has left the reset condition: an INIT has been executed since reset, and the cursor no longer stems from the
  launch pair (R28, R125). No operation reads it (log 1). -/
  initialised : Bool
  /-- CX (R19). -/
  cx : Coord
  /-- CY (R19). -/
  cy : Coord
  /-- The string of the DRAW in progress; none when no DRAW is in progress (R20, R48). -/
  call : Option (List Char21)
  /-- The program counter k: the index of the character being processed (R20); 0 outside a DRAW. -/
  pc : Nat
  /-- The transient values of the character being processed (R21). -/
  tr : Transient
  /-- A fill command the surface has not answered; the block waits on it for ever (R27, R135, U9). -/
  waiting : Option FillCmd
  /-- The model's own port: an operation of a sub-unit to be invoked directly, as the spec's examples do (R70; log 11).
  Neither the block nor the host writes it. -/
  direct : Option { i : Instr // i.isDirect = true }
  /-- The operations the host has still to issue, first first (R136, R137). -/
  requests : List Request
  /-- The results returned to the host so far, oldest first (R16, R24). -/
  replies : List Reply
  /-- The fill commands issued so far with their answers, oldest first (R16). -/
  trace : List FillRecord
  /-- The surface's answers to the next fills, first first (R17, R135). -/
  answers : List Answer
  /-- The model's own counter of free answers drawn once `answers` is used up (log 7). -/
  drawn : Nat
  deriving DecidableEq, Repr

/-! ## How a step can stop -/

/-- The machine stops with a fault. -/
inductive Fault where
  /-- Raised by `step` when a fill command was issued and the surface never answers it: the block is stuck and its call
  never returns (R135, U9). Safe: no further state is given. -/
  | surfaceSilent
  deriving DecidableEq, Repr

/-- The model has no meaning for the instruction in this state. -/
inductive Refusal where
  /-- Raised by `exec` for an instruction that has no meaning yet. Safe. -/
  | notModelled (mnemonic : String)
  /-- Raised by the two ILLEGAL rows, by PUTC, DRAW, GI.SEL, GI.DOMAIN and GI.LOOKUP, for a word that is no Unicode
  scalar value (R58, U11). Safe. -/
  | notScalarValue
  /-- Raised by INIT, DRAW and GETPOS while a DRAW is in progress, and by these, PUTC, BC.FILL, BC.BLIT and CA.ADVANCE
  while a fill is outstanding (R129, R27, R96, U14). Safe. -/
  | blockBusy
  /-- Raised by GR.LOAD for an address at or above ATLAS_LEN, and by GR.RASTER for an offset whose glyph does not lie in
  the atlas: the spec gives them no meaning there (R78, R80, U4). Safe. -/
  | atlasOutOfRange
  deriving DecidableEq, Repr

/-- The outcome of an instruction or a step. -/
abbrev Outcome := Host.Outcome State Fault Refusal

/-! ## Reset -/

/-- The configuration at reset: the spec's defaults, and FG open (R23; log 2, log 3). -/
def resetConfig : BlockConfig :=
  { coordW := 32, colorW := 16, scale := 2, fg := Config.foreground.toNat, policy := .reject, atlasLen := 1024,
    scaleLegal := by decide, fgFits := Config.foreground.isLt }

/-- The machine right after reset (R28, R125): the cursor is the launch pair, a free value of Config (R28; log 1), no call is
in progress, no transient value exists, no font image is listed, the host has asked for nothing. -/
def State.reset : State :=
  { cfg := resetConfig, atlas := [], initialised := false, cx := Config.launchX.toInt, cy := Config.launchY.toInt, call := none, pc := 0,
    tr := Transient.empty, waiting := none, direct := none, requests := [], replies := [], trace := [], answers := [],
    drawn := 0 }

end Sys2Proof.Machine
end

