-- ==== Sys2Proof/Machine/Ops.lean ====
section
/-! DEFINITION. The named operations over the state: reading the atlas, returning to the host, taking an exception, the
fill transaction, the blitter's loop, the cursor, and the two sequences (a character, a string) built from them. -/

namespace Sys2Proof.Machine

/-! ## The atlas -/

/-- MemRead(a, 1): the listed byte at `a`, else the open byte of the font resource (R13, R32). -/
def Memory.read : Memory → Nat → Byte
  | [], a => Config.fontByte a
  | (k, b) :: rest, a => if k = a then b else Memory.read rest a

/-- Puts one byte of a font image in place, keeping the canonical form: a byte equal to what an unlisted address reads
as is not listed. The block has no store (R38, R40); this stands for the build-time link of the resource. -/
def Memory.write : Memory → Nat → Byte → Memory
  | [], a, v => if v = Config.fontByte a then [] else [(a, v)]
  | (k, b) :: rest, a, v =>
    if a < k then (if v = Config.fontByte a then (k, b) :: rest else (a, v) :: (k, b) :: rest)
    else if a = k then (if v = Config.fontByte a then rest else (a, v) :: rest)
    else (k, b) :: Memory.write rest a v

/-- The canonical form above an address bound: addresses rise strictly, stay below 1024, and no entry equals what an
unlisted address reads as. -/
def Memory.wfFrom : Nat → Memory → Bool
  | _, [] => true
  | lo, (k, b) :: rest =>
    decide (lo ≤ k) && decide (k < Config.fullAtlas) && decide (b ≠ Config.fontByte k) && Memory.wfFrom (k + 1) rest

/-- The canonical form of an atlas (R32: addresses 0 to 1023). -/
def Memory.wf (m : Memory) : Bool := Memory.wfFrom 0 m

/-! ## Returning to the host, and exceptions -/

/-- The block is occupied: a DRAW is in progress or a fill is outstanding (R129, R27). -/
def State.busy (s : State) : Bool := s.call.isSome || s.waiting.isSome

/-- A host operation returns its result: the call, its program counter and every transient value cease to exist
(R20, R21, R24, R136). -/
def finish (r : Reply) (s : State) : State :=
  { s with replies := s.replies ++ [r], call := none, pc := 0, tr := Transient.empty }

/-- TAKING AN EXCEPTION (R114): nothing is saved, no register is written; the current operation and every operation that
invoked it end, and the host gets Err. The cursor stays where the failed character began (R99). There is no return
instruction (R115): after the raise the block is idle and takes the host's next operation. -/
def raise (x : Exc) (s : State) : State := finish (.err x) s

/-- A character completed: inside a DRAW the program counter moves to the next character (R20, R98); a PUTC issued by
the host returns Ok (R97). Its transient values cease to exist (R21). -/
def charDone (s : State) : State :=
  match s.call with
  | some _ => { s with pc := s.pc + 1, tr := Transient.empty }
  | none => finish .ok s

/-- The transient values an operation leaves for the rest of its character (R21). -/
def latch (tr : Transient) (s : State) : State := { s with tr := tr }

/-! ## The surface -/

/-- The surface's answer to the next fill: the next listed answer, else a free draw (R17, R135; log 7). -/
def surfaceDraw (s : State) : Answer × State :=
  match s.answers with
  | a :: rest => (a, { s with answers := rest })
  | [] => (Config.surfaceAnswer s.drawn, { s with drawn := s.drawn + 1 })

/-- How a fill, or a sequence of fills, ends. -/
inductive FillEnd where
  /-- Every fill was answered Ok. -/
  | done
  /-- A fill was answered Err(e); no later one was issued. -/
  | failed (e : SurfErr)
  /-- A fill was never answered; it is outstanding. -/
  | silent
  deriving DecidableEq, Repr

/-- BC.FILL's transaction: the command goes out with the configured colour and its answer is awaited (R86, R42). -/
def fill (r : Rect) (s : State) : FillEnd × State :=
  let cmd : FillCmd := { rect := r, col := s.cfg.fg }
  let (a, t) := surfaceDraw s
  let t := { t with trace := t.trace ++ [{ cmd := cmd, answer := a }] }
  match a with
  | .ok => (.done, t)
  | .err e => (.failed e, t)
  | .never => (.silent, { t with waiting := some cmd })

/-- BC.RECT: the rectangle of source pixel (i, j), magnified (R85, R90). -/
def pixelRect (cfg : BlockConfig) (ox oy : Coord) (i : Fin 8) (j : Fin 4) : Rect :=
  { x := coordAdd cfg.coordW ox (j.val * cfg.scale), y := coordAdd cfg.coordW oy (i.val * cfg.scale),
    w := cfg.scale, h := cfg.scale }

/-- The counters i, j and the rectangle of a pixel, which the block still holds while its fill is outstanding (R21,
R27). -/
def latchPixel (i : Fin 8) (j : Fin 4) (r : Rect) (s : State) : State :=
  latch { s.tr with i := some i, j := some j, rect := some r } s

/-- BC.BLIT's loops over the pixels still to visit: test, fill if set, leave at the first failure (R87, R88). -/
def blitFrom (bm : Bitmap) (ox oy : Coord) : List (Fin 8 × Fin 4) → State → FillEnd × State
  | [], s => (.done, s)
  | (i, j) :: rest, s =>
    if testBit bm[i] j then
      let r := pixelRect s.cfg ox oy i j
      match fill r s with
      | (.done, t) => blitFrom bm ox oy rest t
      | (.failed e, t) => (.failed e, t)
      | (.silent, t) => (.silent, latchPixel i j r t)
    else blitFrom bm ox oy rest s

/-- What follows the fills of an operation: `next` if all were answered Ok, an exception if one failed, and nothing
while one is outstanding (R86, R88, R114). -/
def afterFills (next : State → State) : FillEnd × State → State
  | (.done, t) => next t
  | (.failed e, t) => raise (.surfaceWriteFailure e) t
  | (.silent, t) => t

/-! ## The cursor -/

/-- CA.ADVANCE's effect: CX moves right by WIDTH * SCALE, CY stays (R96). -/
def advance (s : State) : State := { s with cx := advanceX s.cfg.coordW s.cfg.scale s.cx }

/-! ## One character -/

/-- The transient values GI.LOOKUP leaves when it passes (R73, R21). -/
def lookupTransient (c : Char21) (off : Offset) (par : Bool) : Transient :=
  { Transient.empty with
    ch := some c, sel := some (selector c), upper := some (upperOf (selector c)),
    lower := some (lowerOf (selector c)), startOffset := some off, par := some par }

/-- The state in which the blitter starts on a character: bitmap and origin latched beside the lookup's values (R97,
R21). -/
def beginGlyph (c : Char21) (off : Offset) (par : Bool) (bm : Bitmap) (s : State) : State :=
  latch { lookupTransient c off par with bm := some bm, ox := some s.cx, oy := some s.cy } s

/-- PUTC's sequence for a scalar value (R97): look up, rasterise, blit at the cursor, advance, return Ok; an exception
anywhere skips the rest. -/
def render (c : Char21) (s : State) : State :=
  match lookup s.cfg c with
  | none => raise (.unsupportedCharacter c) s
  | some (off, par) =>
    let bm := raster s.atlas.read off par
    afterFills (fun t => charDone (advance t)) (blitFrom bm s.cx s.cy scan (beginGlyph c off par bm s))

/-- PUTC: refused for a word that is no scalar value (R58) and while a fill is outstanding (R27); otherwise the sequence of
R97, inside a DRAW or issued by the host. -/
def putc (c : Char21) (s : State) : Outcome :=
  if isScalar c then
    if s.waiting.isSome then .refused .blockBusy
    else .next (render c s)
  else .refused .notScalarValue

/-! ## One step of a render call -/

/-- The character the render call in progress is at, and none at the end of the string (R20, R98). -/
def currentChar (str : List Char21) (pc : Nat) : Option Char21 := str[pc]?

end Sys2Proof.Machine
end

