-- ==== Sys2Proof/Machine/Blitter.lean ====
section
/-! DEFINITION. The meanings of the blitter's operations BC.* (`spec/42_blitter_controller.md`). They write no register
(R92); BC.FILL and BC.BLIT talk to the surface. -/

namespace Sys2Proof.Machine

/-- BC.TEST (n, j): the pixel bit n[3-j] (R84). -/
def execBcTest (n : Nib) (j : Fin 4) (s : State) : Outcome :=
  .next (latch { s.tr with nib := some n, j := some j, bit := some (testBit n j) } s)

/-- BC.RECT (ox, oy, i, j): the magnified rectangle of a pixel (R85); an origin outside COORD_W bits counts as the value
of its low COORD_W bits (log 23). -/
def execBcRect (ox oy : Coord) (i : Fin 8) (j : Fin 4) (s : State) : Outcome :=
  .next (latch { s.tr with ox := some (narrow s.cfg.coordW ox), oy := some (narrow s.cfg.coordW oy),
                                   i := some i, j := some j, rect := some (pixelRect s.cfg ox oy i j) } s)

/-- The rectangle BC.FILL sends: its operands as they are, a corner in COORD_W bits (R42, R86; log 23). -/
def fillRect (cfg : BlockConfig) (x y : Coord) (w h : Nat) : Rect :=
  { x := narrow cfg.coordW x, y := narrow cfg.coordW y, w := w, h := h }

/-- BC.FILL (x, y, w, h): one fill transaction; an error answer raises SurfaceWriteFailure (R86). DESIGN CHOICE (log 28):
invoked directly, Ok is told by the next state alone, which has no new result and no fill outstanding, while a raise is
recorded among the results; the command is sent also for a size of 0, which the spec says nothing of (log 23). -/
def execBcFill (x y : Coord) (w h : Nat) (s : State) : Outcome :=
  if s.waiting.isSome then .refused .blockBusy
  else
    let r := fillRect s.cfg x y w h
    .next (afterFills id (fill r (latch { s.tr with rect := some r } s)))

/-- BC.BLIT (bm, ox, oy): one fill for each set pixel in scan order, until the first failure (R87, R88). DESIGN CHOICE
(log 28): invoked directly, Ok is told by the next state alone and a raise is recorded among the results, as for
BC.FILL. -/
def execBcBlit (bm : Bitmap) (ox oy : Coord) (s : State) : Outcome :=
  if s.waiting.isSome then .refused .blockBusy
  else
    .next (afterFills id
      (blitFrom bm ox oy scan
        (latch { s.tr with bm := some bm, ox := some (narrow s.cfg.coordW ox), oy := some (narrow s.cfg.coordW oy) } s)))

end Sys2Proof.Machine
end

