-- ==== Sys2Proof/WellFormed.lean ====
section
/-! DEFINITION. Which instructions are well-formed: the fields of a CHAR21 class lie in the class's range (R52, R58),
characters are scalar values (R51), offsets have the start_offset form (R54), rectangles have a positive size (R42).
Encoding and decoding are stated for these; the meanings run on other operands too wherever the spec gives an effect
(log 23). -/

namespace Sys2Proof

/-- The operands of an instruction lie in the ranges the spec gives them. -/
def Instr.wellFormed : Instr → Bool
  | .putcU1 _ _ => true
  | .putcU2 top _ => decide (2 ≤ top.toNat)
  | .illegalSurrogate _ => true
  | .putcU3 top low =>
      (decide (top.toNat ≠ 0) || decide (0x800 ≤ low.toNat)) &&
      (decide (top.toNat ≠ 0xD) || decide (low.toNat < 0x800))
  | .putcU4Low top low => decide (top.toNat ≠ 0) || decide (0x10000 ≤ low.toNat)
  | .putcU4High _ => true
  | .illegalAbove word => decide (0x110000 ≤ word.toNat)
  | .giSplit _ => true
  | .grAddr off _ => Machine.isStartOffset off
  | .grNib _ _ => true
  | .bcTest _ _ => true
  | .init _ _ => true
  | .draw str => str.all Machine.isScalar
  | .getpos => true
  | .giSel c => Machine.isScalar c
  | .giDomain c => Machine.isScalar c
  | .giIndex _ _ => true
  | .giPar _ => true
  | .giBounds off => Machine.isStartOffset off
  | .giLookup c => Machine.isScalar c
  | .grLoad _ => true
  | .grRaster off _ => Machine.isStartOffset off
  | .bcRect _ _ _ _ => true
  | .bcFill _ _ w h => decide (0 < w) && decide (0 < h)
  | .bcBlit _ _ _ => true
  | .caAdvance => true

end Sys2Proof
end

