-- ==== Sys2Proof/Decode.lean ====
section
/-! DEFINITION. The decoder of the encoded formats of `spec/30_encoding.md` (total: every word gives an instruction or a
named rejection), then the encoder written from the same tables. A CHAR21 word is decoded by trying the seven rows of
section 6 in ascending priority and taking the first whose mask and match hold. -/

namespace Sys2Proof

/-! ## Formats -/

/-- The encoded formats. A format that leaves an operand of its operation outside the word (the parity that goes with
an atlas byte, the column that goes with a nibble) carries that operand beside it (R55, R56). -/
inductive Format where
  /-- CHAR21: one character, the instruction word (R51). -/
  | char21
  /-- SEL8: the operand of GI.SPLIT (R53). -/
  | sel8
  /-- OFF10: the row address GR.ADDR forms, upper, pixel row and byte column side by side (R54). -/
  | off10
  /-- ATLAS8: the byte operand of GR.NIB, with the parity beside it (R55). -/
  | atlas8 (par : Bool)
  /-- NIB4: the nibble operand of BC.TEST, with the pixel column beside it (R56). -/
  | nib4 (j : Fin 4)
  deriving DecidableEq, Repr

/-- The width of a format in bits (the table that opens `spec/30_encoding.md`). -/
def Format.width : Format → Nat
  | .char21 => 21
  | .sel8 => 8
  | .off10 => 10
  | .atlas8 _ => 8
  | .nib4 _ => 4

/-- Why a word is rejected by the decoder. -/
inductive DecodeError where
  /-- The number has a bit above the format's width. Safe: nothing is executed. -/
  | tooWide
  deriving DecidableEq, Repr

/-! ## Decoding -/

/-- The CHAR21 decoder: priority 1 to 7 of the table in section 6 (R51, R52, R58). The two ILLEGAL rows are
instructions of their own, which the machine refuses by name. -/
def decodeChar (w : Char21) : Instr :=
  if w &&& 0x1FFF80#21 = 0x000000#21 then .putcU1 (w.extractLsb' 4 3) (w.extractLsb' 0 4)
  else if w &&& 0x1FF800#21 = 0x000000#21 then .putcU2 (w.extractLsb' 6 5) (w.extractLsb' 0 6)
  else if w &&& 0x1FF800#21 = 0x00D800#21 then .illegalSurrogate (w.extractLsb' 0 11)
  else if w &&& 0x1F0000#21 = 0x000000#21 then .putcU3 (w.extractLsb' 12 4) (w.extractLsb' 0 12)
  else if w &&& 0x100000#21 = 0x000000#21 then .putcU4Low (w.extractLsb' 18 2) (w.extractLsb' 0 18)
  else if w &&& 0x1F0000#21 = 0x100000#21 then .putcU4High (w.extractLsb' 0 16)
  else .illegalAbove w

/-- The OFF10 decoder: `a[9:6]` is upper, `a[5:3]` the pixel row, `a[2:0]` the byte column; the start offset is
upper, three zero bits and the byte column (R54, R77). -/
def decodeOff10 (a : Offset) : Instr :=
  .grAddr (a.extractLsb' 6 4 ++ 0#3 ++ a.extractLsb' 0 3) (Fin.ofNat 8 (a.extractLsb' 3 3).toNat)

/-- The decoder: a number read in a format. -/
def decode (f : Format) (w : Nat) : Except DecodeError Instr :=
  if w < 2 ^ f.width then
    match f with
    | .char21 => .ok (decodeChar (BitVec.ofNat 21 w))
    | .sel8 => .ok (.giSplit (BitVec.ofNat 8 w))
    | .off10 => .ok (decodeOff10 (BitVec.ofNat 10 w))
    | .atlas8 par => .ok (.grNib (BitVec.ofNat 8 w) par)
    | .nib4 j => .ok (.bcTest (BitVec.ofNat 4 w) j)
  else .error .tooWide

/-- The format of a row of the opcode table that has `nbits` bits, in whole bytes or exactly: 21 (24) bits is CHAR21,
10 (16) OFF10, 8 SEL8 (the first 8-bit row of the table), 4 NIB4 (log 20). -/
def tableFormat (nbits : Nat) : Option Format :=
  if nbits = 24 ∨ nbits = 21 then some .char21
  else if nbits = 16 ∨ nbits = 10 then some .off10
  else if nbits = 8 then some .sel8
  else if nbits = 4 then some (.nib4 0)
  else none

/-- The instruction the decoder reads from a row's word, its bits numbered as the opcode table numbers them. The block
keeps its words as numbers, not as bytes (R36, R61), so there is no byte order to apply. -/
def decodeTableWord (nbits w : Nat) : Option Instr :=
  match tableFormat nbits with
  | none => none
  | some f =>
    match decode f w with
    | .ok i => some i
    | .error _ => none

/-! ## Encoding -/

/-- The character of a class U1 word: fourteen zero bits, u, l (R52). -/
def charU1 (u : BitVec 3) (l : Nib) : Char21 := (u ++ l).setWidth 21

/-- The character of a class U2 word: ten zero bits, the five selector bits, six ignored bits (R52). -/
def charU2 (top : BitVec 5) (low : BitVec 6) : Char21 := (top ++ low).setWidth 21

/-- The word of a surrogate: 0000011011 and eleven bits (R58). -/
def charSurrogate (low : BitVec 11) : Char21 := (0b0000011011#10 ++ low)

/-- The character of a class U3 word: five zero bits, the four selector bits, twelve ignored bits (R52). -/
def charU3 (top : BitVec 4) (low : BitVec 12) : Char21 := (top ++ low).setWidth 21

/-- The character of a class U4 word below 0x100000: a zero bit, two selector bits, eighteen ignored bits (R52). -/
def charU4Low (top : BitVec 2) (low : BitVec 18) : Char21 := (top ++ low).setWidth 21

/-- The character of a class U4 word from 0x100000 on: 10000 and sixteen ignored bits (R52). -/
def charU4High (low : BitVec 16) : Char21 := (0b10000#5 ++ low)

/-- The encoder: the format and the word of an instruction that has an encoding; none for the abstract operations
(R62). -/
def encode : Instr → Option (Format × Nat)
  | .putcU1 u l => some (.char21, (charU1 u l).toNat)
  | .putcU2 top low => some (.char21, (charU2 top low).toNat)
  | .illegalSurrogate low => some (.char21, (charSurrogate low).toNat)
  | .putcU3 top low => some (.char21, (charU3 top low).toNat)
  | .putcU4Low top low => some (.char21, (charU4Low top low).toNat)
  | .putcU4High low => some (.char21, (charU4High low).toNat)
  | .illegalAbove word => some (.char21, word.toNat)
  | .giSplit sel => some (.sel8, sel.toNat)
  | .grAddr off i => some (.off10, (off + BitVec.ofNat 10 (8 * i.val)).toNat)
  | .grNib b par => some (.atlas8 par, b.toNat)
  | .bcTest n j => some (.nib4 j, n.toNat)
  | .init _ _ | .draw _ | .getpos | .giSel _ | .giDomain _ | .giIndex _ _ | .giPar _ | .giBounds _ | .giLookup _
  | .grLoad _ | .grRaster _ _ | .bcRect _ _ _ _ | .bcFill _ _ _ _ | .bcBlit _ _ _ | .caAdvance => none

end Sys2Proof
end

