-- ==== Sys2Proof/Machine/Cursor.lean ====
section
/-! DEFINITION. The instruction words (PUTC by class, and the two ILLEGAL rows), the host operations INIT, DRAW and
GETPOS, and CA.ADVANCE (`spec/43_cursor_and_render.md`). -/

namespace Sys2Proof.Machine

/-! ## The instruction words -/

/-- PUTC of a class U1 character, the supported domain (R97, R52). -/
def execPutcU1 (u : BitVec 3) (l : Nib) (s : State) : Outcome := putc (charU1 u l) s

/-- PUTC of a class U2 character (R97, R52). -/
def execPutcU2 (top : BitVec 5) (low : BitVec 6) (s : State) : Outcome := putc (charU2 top low) s

/-- PUTC of a class U3 character (R97, R52). -/
def execPutcU3 (top : BitVec 4) (low : BitVec 12) (s : State) : Outcome := putc (charU3 top low) s

/-- PUTC of a class U4 character below 0x100000 (R97, R52). -/
def execPutcU4Low (top : BitVec 2) (low : BitVec 18) (s : State) : Outcome := putc (charU4Low top low) s

/-- PUTC of a class U4 character from 0x100000 on (R97, R52). -/
def execPutcU4High (low : BitVec 16) (s : State) : Outcome := putc (charU4High low) s

/-- A surrogate word: "it refuses them (no meaning), it does not index the atlas with them" (R58). -/
def execIllegalSurrogate (_low : BitVec 11) (_s : State) : Outcome := .refused .notScalarValue

/-- A word above 0x10FFFF: refused for the same reason (R58). -/
def execIllegalAbove (_word : Char21) (_s : State) : Outcome := .refused .notScalarValue

/-! ## The host operations -/

/-- INIT x0, y0: the cursor gets its value and nothing else is touched (R95). Issued only when the block is idle
(R129). An operand outside COORD_W bits counts as the value of its low COORD_W bits (log 23). -/
def execInit (x0 y0 : Coord) (s : State) : Outcome :=
  if s.busy then .refused .blockBusy
  else
    .next { s with initialised := true, cx := narrow s.cfg.coordW x0, cy := narrow s.cfg.coordW y0,
                   replies := s.replies ++ [.nothing] }

/-- DRAW str: the render call starts with its program counter at 0 (R98); `step` then runs PUTC of one character a step
until the string ends or a character fails, and returns the result (R20, R64; log 12). A string with a word that is no
scalar value cannot be presented (R58). Before the first INIT it draws from the launch pair (R28; log 1). -/
def execDraw (str : List Char21) (s : State) : Outcome :=
  if s.busy then .refused .blockBusy
  else if str.all isScalar then .next { s with call := some str, pc := 0, tr := Transient.empty }
  else .refused .notScalarValue

/-- GETPOS: the cursor pair is returned, with no effect (R100); before the first INIT that is the launch pair (R28;
log 1). -/
def execGetpos (s : State) : Outcome :=
  if s.busy then .refused .blockBusy
  else .next { s with replies := s.replies ++ [.pos s.cx s.cy] }

/-- CA.ADVANCE: CX moves right by 4*SCALE (R96). PUTC invokes it only after BC.BLIT returned Ok, so it has no meaning while
a fill is outstanding. -/
def execCaAdvance (s : State) : Outcome :=
  if s.waiting.isSome then .refused .blockBusy else .next (advance s)

/-- The operation a move of the host stands for; a character is decoded (R137, R51). -/
def Request.instr : Request → Instr
  | .init x0 y0 => .init x0 y0
  | .draw str => .draw str
  | .putc word => decodeChar word
  | .getpos => .getpos

end Sys2Proof.Machine
end

