-- ==== Sys2Proof/Machine/Indexer.lean ====
section
/-! DEFINITION. The meanings of the glyph indexer's operations GI.* (`spec/40_glyph_indexer.md`). They read and write no
register and no memory (R73); what they produce are the transient values of the character (R21). -/

namespace Sys2Proof.Machine

/-- GI.SPLIT sel: (upper, lower) (R69). -/
def execGiSplit (sel : Byte) (s : State) : Outcome :=
  .next (latch { s.tr with sel := some sel, upper := some (upperOf sel), lower := some (lowerOf sel) } s)

/-- GI.SEL c: the selector byte of a scalar value (R67); any other word is refused (R58). -/
def execGiSel (c : Char21) (s : State) : Outcome :=
  if isScalar c then .next (latch { s.tr with ch := some c, sel := some (selector c) } s)
  else .refused .notScalarValue

/-- GI.DOMAIN c: passes, or raises UnsupportedCharacter(c) (R68); a word that is no scalar value is refused (R58). -/
def execGiDomain (c : Char21) (s : State) : Outcome :=
  if isScalar c then
    if domainOk s.cfg.policy c then .next (latch { s.tr with ch := some c } s)
    else .next (raise (.unsupportedCharacter c) s)
  else .refused .notScalarValue

/-- GI.INDEX (upper, lower): start_offset (R70). -/
def execGiIndex (upper lower : Nib) (s : State) : Outcome :=
  .next (latch { s.tr with upper := some upper, lower := some lower,
                                   startOffset := some (startOffsetOf upper lower) } s)

/-- GI.PAR lower: the parity flag (R71). -/
def execGiPar (lower : Nib) (s : State) : Outcome :=
  .next (latch { s.tr with lower := some lower, par := some (parity lower) } s)

/-- GI.BOUNDS start_offset: passes, or raises UnsupportedCharacter with the character being looked up (R72); with no
character being looked up the payload is a free value (log 16). -/
def execGiBounds (startOffset : Offset) (s : State) : Outcome :=
  if boundsOk s.cfg.atlasLen startOffset then .next (latch { s.tr with startOffset := some startOffset } s)
  else .next (raise (.unsupportedCharacter (s.tr.ch.getD Config.strayCharacter)) s)

/-- GI.LOOKUP c: (start_offset, par), or UnsupportedCharacter(c) (R73); a word that is no scalar value is refused
(R58). -/
def execGiLookup (c : Char21) (s : State) : Outcome :=
  if isScalar c then
    match lookup s.cfg c with
    | none => .next (raise (.unsupportedCharacter c) s)
    | some (off, par) => .next (latch (lookupTransient c off par) s)
  else .refused .notScalarValue

end Sys2Proof.Machine
end

