-- ==== Sys2Proof/Machine/Rasterizer.lean ====
section
/-! DEFINITION. The meanings of the rasterizer's operations GR.* (`spec/41_glyph_rasterizer.md`). They read the atlas and
write no register (R81). -/

namespace Sys2Proof.Machine

/-- GR.ADDR (start_offset, i): start_offset + 8*i in format OFF10 (R77). It runs whether or not GI.BOUNDS passes, and for
an offset of any form: no carry leaves the row field when it has the start_offset form, and a sum of more than ten bits,
for which the spec states no result, is a free value (R54; log 15). -/
def execGrAddr (startOffset : Offset) (i : Fin 8) (s : State) : Outcome :=
  .next (latch { s.tr with startOffset := some startOffset, i := some i,
                                   addr := some (rowAddrOf startOffset i) } s)

/-- GR.LOAD a: the atlas byte at a; an address at or above ATLAS_LEN has no meaning (R78, U4). -/
def execGrLoad (a : Offset) (s : State) : Outcome :=
  if a.toNat < s.cfg.atlasLen.val then
    .next (latch { s.tr with addr := some a, byte := some (s.atlas.read a.toNat) } s)
  else .refused .atlasOutOfRange

/-- GR.NIB (b, par): the row nibble (R79). -/
def execGrNib (b : Byte) (par : Bool) (s : State) : Outcome :=
  .next (latch { s.tr with byte := some b, par := some par, nib := some (nibble b par) } s)

/-- GR.RASTER (start_offset, par): the bitmap; its precondition is that GI.BOUNDS passes (R80). -/
def execGrRaster (startOffset : Offset) (par : Bool) (s : State) : Outcome :=
  if boundsOk s.cfg.atlasLen startOffset then
    .next (latch { s.tr with startOffset := some startOffset, par := some par,
                                     bm := some (raster s.atlas.read startOffset par) } s)
  else .refused .atlasOutOfRange

end Sys2Proof.Machine
end

