-- ==== Sys2Proof/Machine/Dispatch.lean ====
section
/-! DEFINITION. The dispatch: one arm for each constructor of Instr, each one direct call of its meaning. -/

namespace Sys2Proof.Machine

/-- The meaning of an instruction. -/
def exec (i : Instr) (s : State) : Host.Outcome State Fault Refusal :=
  match i with
  | .putcU1 u l => Sys2Proof.Machine.execPutcU1 u l s
  | .putcU2 top low => Sys2Proof.Machine.execPutcU2 top low s
  | .illegalSurrogate low => Sys2Proof.Machine.execIllegalSurrogate low s
  | .putcU3 top low => Sys2Proof.Machine.execPutcU3 top low s
  | .putcU4Low top low => Sys2Proof.Machine.execPutcU4Low top low s
  | .putcU4High low => Sys2Proof.Machine.execPutcU4High low s
  | .illegalAbove word => Sys2Proof.Machine.execIllegalAbove word s
  | .giSplit sel => Sys2Proof.Machine.execGiSplit sel s
  | .grAddr startOffset row => Sys2Proof.Machine.execGrAddr startOffset row s
  | .grNib b par => Sys2Proof.Machine.execGrNib b par s
  | .bcTest n j => Sys2Proof.Machine.execBcTest n j s
  | .init x0 y0 => Sys2Proof.Machine.execInit x0 y0 s
  | .draw str => Sys2Proof.Machine.execDraw str s
  | .getpos => Sys2Proof.Machine.execGetpos s
  | .giSel c => Sys2Proof.Machine.execGiSel c s
  | .giDomain c => Sys2Proof.Machine.execGiDomain c s
  | .giIndex upper lower => Sys2Proof.Machine.execGiIndex upper lower s
  | .giPar lower => Sys2Proof.Machine.execGiPar lower s
  | .giBounds startOffset => Sys2Proof.Machine.execGiBounds startOffset s
  | .giLookup c => Sys2Proof.Machine.execGiLookup c s
  | .grLoad a => Sys2Proof.Machine.execGrLoad a s
  | .grRaster startOffset par => Sys2Proof.Machine.execGrRaster startOffset par s
  | .bcRect ox oy row col => Sys2Proof.Machine.execBcRect ox oy row col s
  | .bcFill x y w h => Sys2Proof.Machine.execBcFill x y w h s
  | .bcBlit bm ox oy => Sys2Proof.Machine.execBcBlit bm ox oy s
  | .caAdvance => Sys2Proof.Machine.execCaAdvance s

end Sys2Proof.Machine
end

