-- ==== Sys2Proof/Machine/Step.lean ====
section
/-! DEFINITION. One step of the machine, and where it fetches its next instruction. During a DRAW the next instruction is
the character at the program counter (R20); when the block is idle it is the host's next operation (R137). -/

namespace Sys2Proof.Machine

/-- One step. A fill that is never answered leaves the block stuck (R135, U9). During a DRAW: PUTC of the character at
`pc`, and at the end of the string the return of Ok (R98). Idle: an operation of a sub-unit invoked directly (log 11),
else the host's next operation, if it has one (R121, R137). CA.ADVANCE happens inside PUTC only (R96). -/
def step (s : State) : Host.Outcome State Fault Refusal :=
  match s.waiting with
  | some _ => .fault .surfaceSilent
  | none =>
    match s.call with
    | some str =>
      match currentChar str s.pc with
      | some w => exec (decodeChar w) s
      | none => .next (finish .ok s)
    | none =>
      match s.direct with
      | some i => exec i.val { s with direct := none }
      | none =>
        match s.requests with
        | [] => .next s
        | r :: rest => exec r.instr { s with requests := rest }

/-- The state with the instruction of an opcode-table word where `step` fetches next. A CHAR21 word is the only
character of a DRAW in progress; a word of another format is an operation invoked directly. It stands for the load of a
program from outside the machine (log 10, log 21). -/
def State.withFetchWord (s : State) (nbits w : Nat) : State :=
  match tableFormat nbits with
  | some .char21 =>
    { s with waiting := none, call := some [BitVec.ofNat 21 w], pc := 0 }
  | _ =>
    match decodeTableWord nbits w with
    | some i =>
      if h : i.isDirect = true then { s with waiting := none, call := none, direct := some ⟨i, h⟩ } else s
    | none => s

end Sys2Proof.Machine
end

