-- ==== Sys2Proof/Machine/Surface.lean ====
section
/-! DEFINITION. The reference surface of R45, a test aid that no statement about the block may rest on (D19): what a
frame of SW by SH pixels shows after a command trace. It is no part of the block's state (R16, R44). -/

namespace Sys2Proof.Machine

/-- A rectangle covers pixel (px, py) (R42). -/
def covers (r : Rect) (px py : Int) : Bool :=
  decide (r.x ≤ px) && decide (px < r.x + r.w) && decide (r.y ≤ py) && decide (py < r.y + r.h)

/-- One command of the trace, the `n`-th, painted over the colour `c` of pixel (px, py): a fill answered Ok sets the
pixels it covers (R45); what a fill answered otherwise did to them is unspecified, so there the colour is a free value of
COLOR_W bits (R45, U2; log 22). -/
def paint (cfg : BlockConfig) (surface : Nat) (px py : Int) (c : Colour) (r : FillRecord) (n : Nat) : Colour :=
  if covers r.cmd.rect px py then
    match r.answer with
    | .ok => r.cmd.col
    | .err _ | .never => Config.failedFillPixel surface n px py % 2 ^ cfg.colorW
  else c

/-- The colour of pixel (px, py) of a frame of `sw` by `sh` pixels after a trace, none outside the frame: the frame is
cleared to the background, and each command is painted over it in order, clipped to the frame (R45). -/
def shownAt (cfg : BlockConfig) (surface sw sh : Nat) (bg : Colour) (trace : List FillRecord) (px py : Int) :
    Option Colour :=
  if 0 ≤ px ∧ px < sw ∧ 0 ≤ py ∧ py < sh then
    some (trace.zipIdx.foldl (fun c r => paint cfg surface px py c r.1 r.2) bg)
  else none

end Sys2Proof.Machine
end

