-- ==== Sys2Proof/Safety.lean ====
section
/-! DEFINITION. The terms in which claims about the block are stated: the invariant of a run, when the block is idle,
what the spec's tables and formulas say a character selects and which fills it makes (written from the rules, on
natural numbers, apart from the model's own operand functions), and two relations between outcomes. -/

namespace Sys2Proof.Safety

open Sys2Proof.Machine

/-! ## Runs -/

/-- The block is idle: no DRAW in progress, no fill outstanding (R121, R129). -/
abbrev Idle (s : State) : Prop := s.call = none ∧ s.waiting = none

/-- A DRAW in progress is at a place of its string, and its string holds scalar values only (R20, R58); outside a DRAW the program counter rests at 0 (R28). -/
def callWf (s : State) : Bool :=
  match s.call with
  | some str => decide (s.pc ≤ str.length) && str.all isScalar
  | none => decide (s.pc = 0)

/-- An outstanding fill is the last command of the trace, and it has had no answer; every command before it has had one
(R27, R46). -/
def waitingWf (s : State) : Bool :=
  match s.waiting with
  | some cmd =>
    decide (s.trace.getLast? = some { cmd := cmd, answer := .never }) &&
      s.trace.dropLast.all fun r => decide (r.answer ≠ .never)
  | none => s.trace.all fun r => decide (r.answer ≠ .never)

/-- An integer is a coordinate of the instance: COORD_W bits hold it in two's complement (R9). -/
abbrev InWidth (cfg : BlockConfig) (x : Int) : Prop := -2 ^ (cfg.coordW - 1) ≤ x ∧ x < 2 ^ (cfg.coordW - 1)

/-- The cursor registers hold coordinates (R19). -/
abbrev CursorInWidth (s : State) : Prop := InWidth s.cfg s.cx ∧ InWidth s.cfg s.cy

/-- The invariant of the machine. -/
abbrev Invariant (s : State) : Prop :=
  s.atlas.wf = true ∧ CursorInWidth s ∧ callWf s = true ∧ waitingWf s = true

/-- `n` steps of the machine, stopping at the first fault or refusal. -/
def run (n : Nat) (s : State) : Outcome := Sys2Proof.core.run n s

/-- DRAW issued by the host, and `n` steps after it. -/
def drawRun (str : List Char21) (n : Nat) (s : State) : Outcome :=
  match exec (.draw str) s with
  | .next t => run n t
  | .fault r => .fault r
  | .refused r => .refused r

/-- An instruction is a PUTC, of any of the five classes (R52). -/
def isPutc : Instr → Bool
  | .putcU1 _ _ | .putcU2 _ _ | .putcU3 _ _ | .putcU4Low _ _ | .putcU4High _ => true
  | .illegalSurrogate _ | .illegalAbove _ | .giSplit _ | .grAddr _ _ | .grNib _ _ | .bcTest _ _ | .init _ _ | .draw _
  | .getpos | .giSel _ | .giDomain _ | .giIndex _ _ | .giPar _ | .giBounds _ | .giLookup _ | .grLoad _ | .grRaster _ _
  | .bcRect _ _ _ _ | .bcFill _ _ _ _ | .bcBlit _ _ _ | .caAdvance => false

/-! ## What the spec's tables say -/

/-- The first UTF-8 code unit of a character, by the ranges of R52. -/
def leadByte (c : Nat) : Nat :=
  if c < 0x80 then c
  else if c < 0x800 then 0xC0 + c / 64
  else if c < 0x10000 then 0xE0 + c / 4096
  else 0xF0 + c / 262144

/-- The atlas address of pixel row 0 of the cell a selector names: 64 * upper + lower div 2 (R33, R70). -/
def cellStart (sel : Nat) : Nat := 64 * (sel / 16) + sel % 16 / 2

/-- A character is accepted: in the domain or mapped by its leading byte (R68), and its cell lies in the atlas (R72). -/
abbrev Accepted (cfg : BlockConfig) (c : Char21) : Prop :=
  (c.toNat < 0x80 ∨ cfg.policy = .leadingByte) ∧ cellStart (leadByte c.toNat) + 57 ≤ cfg.atlasLen.val

/-- Pixel (i, j) of the cell a selector names is foreground: bit 7 - j - 4*par of
ATLAS[64*upper + 8*i + lower div 2] (R82). -/
def pixelOn (atlas : Memory) (sel i j : Nat) : Bool :=
  (atlas.read (cellStart sel + 8 * i)).getLsbD (7 - j - 4 * (sel % 2))

/-- x +c n: the sum modulo 2^COORD_W, as a two's complement value (R90). -/
def moved (cfg : BlockConfig) (x : Int) (n : Nat) : Int := Int.bmod (x + n) (2 ^ cfg.coordW)

/-- The fill command of source pixel (i, j) of a glyph at (ox, oy): SCALE by SCALE at (ox +c j*SCALE, oy +c i*SCALE), in
the foreground colour (R85, R86). -/
def pixelFill (cfg : BlockConfig) (ox oy : Coord) (i j : Nat) : FillCmd :=
  { rect := { x := moved cfg ox (j * cfg.scale), y := moved cfg oy (i * cfg.scale), w := cfg.scale, h := cfg.scale },
    col := cfg.fg }

/-- The fills of a set of pixels of a glyph at (ox, oy), in the order of 4*i + j (R87). -/
def fillsOf (cfg : BlockConfig) (on : Nat → Nat → Bool) (ox oy : Coord) : List FillCmd :=
  (List.range 32).filterMap fun p =>
    if on (p / 4) (p % 4) then some (pixelFill cfg ox oy (p / 4) (p % 4)) else none

/-- The fills of the cell a selector names, drawn at (ox, oy) (R82, R87). -/
def glyphFills (cfg : BlockConfig) (atlas : Memory) (sel : Nat) (ox oy : Coord) : List FillCmd :=
  fillsOf cfg (pixelOn atlas sel) ox oy

/-- Pixel (i, j) of a bitmap is foreground: bit 3 - j of row i (R56, R57). -/
def bitmapOn (bm : Bitmap) (i j : Nat) : Bool := (bm.toList.getD i 0).getLsbD (3 - j)

/-- The number of set bits of a bitmap's MASK32 (R57, R89). -/
def popcount (bm : Bitmap) : Nat := (List.range 32).countP fun k => (mask32 bm).getLsbD k

/-- The fills of a string drawn from (ox, oy): each character 4*SCALE to the right of the one before it (R103). -/
def textFills (cfg : BlockConfig) (atlas : Memory) : List Char21 → Coord → Coord → List FillCmd
  | [], _, _ => []
  | c :: rest, ox, oy =>
    glyphFills cfg atlas (leadByte c.toNat) ox oy ++
      textFills cfg atlas rest (moved cfg ox (4 * cfg.scale)) oy

/-- Trace entries of commands that were all answered Ok. -/
def answeredOk (cmds : List FillCmd) : List FillRecord := cmds.map fun c => { cmd := c, answer := .ok }

/-- The state with fills issued and all answered Ok, and the answers left over. -/
def filled (s : State) (cmds : List FillCmd) (rest : List Answer) : State :=
  { s with trace := s.trace ++ answeredOk cmds, answers := rest }

/-- The state with fills issued of which only the last one failed, and the answers left over (R88). -/
def filledUntil (s : State) (pre : List FillCmd) (bad : FillCmd) (e : SurfErr) (rest : List Answer) : State :=
  { s with trace := s.trace ++ (answeredOk pre ++ [{ cmd := bad, answer := .err e }]), answers := rest }

/-- The state with fills issued of which the last one is never answered, and the answers left over: the block waits on it
(R135, U9). -/
def hung (s : State) (pre : List FillCmd) (bad : FillCmd) (rest : List Answer) : State :=
  { s with trace := s.trace ++ (answeredOk pre ++ [{ cmd := bad, answer := .never }]), answers := rest,
           waiting := some bad }

/-- The state after a completed PUTC, given the fills it made (R97): the fills stand in the trace and their answers are
used up, the cursor has advanced, and either the program counter has moved on (inside a DRAW) or Ok has been returned
(issued by the host). -/
def afterPutc (s : State) (cmds : List FillCmd) (rest : List Answer) : State :=
  { s with
    cx := moved s.cfg s.cx (4 * s.cfg.scale), trace := s.trace ++ answeredOk cmds, answers := rest,
    pc := if s.call.isSome then s.pc + 1 else 0, tr := Transient.empty,
    replies := if s.call.isSome then s.replies else s.replies ++ [.ok] }

/-- The state after an exception ended the operation, given the fills it had made (R114): the result is Err, the call is
over, the registers are as they were. -/
def raised (s : State) (x : Exc) : State :=
  { s with replies := s.replies ++ [.err x], call := none, pc := 0, tr := Transient.empty }

/-! ## Comparing outcomes -/

/-- An outcome with its next state changed by a function. -/
def mapNext (f : State → State) : Outcome → Outcome
  | .next s => .next (f s)
  | .fault r => .fault r
  | .refused r => .refused r

/-- An answer with its error payload renamed. -/
def renameAnswer (f : SurfErr → SurfErr) : Answer → Answer
  | .err e => .err (f e)
  | a => a

/-- A result with its error payload renamed. -/
def renameReply (f : SurfErr → SurfErr) : Reply → Reply
  | .err (.surfaceWriteFailure e) => .err (.surfaceWriteFailure (f e))
  | r => r

/-- A state with every surface error in it renamed. -/
def renameErrors (f : SurfErr → SurfErr) (s : State) : State :=
  { s with
    answers := s.answers.map (renameAnswer f), replies := s.replies.map (renameReply f),
    trace := s.trace.map fun r => { r with answer := renameAnswer f r.answer } }

end Sys2Proof.Safety
end

