-- ==== Sys2Proof/Certificates/Slice0/Obligations.lean ====
section
/-! DEFINITION. The statements for the provers, each about the block as the numbered rules of `spec/` describe it. A next
state is given as the old state with the fields that change, so each such equation is its own frame: every field it does
not name is unchanged. -/

open Sys2Proof Sys2Proof.Machine Sys2Proof.Safety

/-! ## Encoding and decoding -/

/-- The decoder reads words written out bit by bit from the tables of R52 to R56 and R58. -/
def Obligations.DecoderReadsWrittenOutWords : Prop :=
  decode .char21 0b000000000000001000001 = .ok (.putcU1 0b100#3 0b0001#4) ∧
  decode .char21 0b000000000000011101001 = .ok (.putcU2 0b00011#5 0b101001#6) ∧
  decode .char21 0b000001101100000000000 = .ok (.illegalSurrogate 0b00000000000#11) ∧
  decode .char21 0b000000011000001000010 = .ok (.putcU3 0b0011#4 0b000001000010#12) ∧
  decode .char21 0b000011111011000000000 = .ok (.putcU4Low 0b00#2 0b011111011000000000#18) ∧
  decode .char21 0b100001111111111111111 = .ok (.putcU4High 0b1111111111111111#16) ∧
  decode .char21 0b100010000000000000000 = .ok (.illegalAbove 0b100010000000000000000#21) ∧
  decode .sel8 0b01000001 = .ok (.giSplit 0b01000001#8) ∧
  decode .off10 0b0100011000 = .ok (.grAddr 0b0100000000#10 3) ∧
  decode (.atlas8 true) 0b00001011 = .ok (.grNib 0b00001011#8 true) ∧
  decode (.nib4 1) 0b1011 = .ok (.bcTest 0b1011#4 1)

/-- Decoding the encoding of a well-formed instruction gives it back, for every instruction that has an encoding. -/
def Obligations.DecodeOfEncodeIsTheInstruction : Prop :=
  ∀ (i : Instr) (f : Format) (w : Nat), i.wellFormed = true → encode i = some (f, w) → decode f w = .ok i

/-- Every 21-bit word is decided by exactly the row of the table in `30_encoding.md` section 6 whose range holds it, the
instruction decoded is well-formed, and encoding it gives the word back. -/
def Obligations.EveryWordIsDecidedByItsRange : Prop :=
  ∀ w : Char21,
    (w.toNat ≤ 0x7F → ∃ u l, decodeChar w = .putcU1 u l) ∧
    (0x80 ≤ w.toNat ∧ w.toNat ≤ 0x7FF → ∃ top low, decodeChar w = .putcU2 top low) ∧
    (0xD800 ≤ w.toNat ∧ w.toNat ≤ 0xDFFF → ∃ low, decodeChar w = .illegalSurrogate low) ∧
    (0x800 ≤ w.toNat ∧ w.toNat ≤ 0xFFFF ∧ ¬ (0xD800 ≤ w.toNat ∧ w.toNat ≤ 0xDFFF) →
      ∃ top low, decodeChar w = .putcU3 top low) ∧
    (0x10000 ≤ w.toNat ∧ w.toNat ≤ 0xFFFFF → ∃ top low, decodeChar w = .putcU4Low top low) ∧
    (0x100000 ≤ w.toNat ∧ w.toNat ≤ 0x10FFFF → ∃ low, decodeChar w = .putcU4High low) ∧
    (0x110000 ≤ w.toNat → decodeChar w = .illegalAbove w) ∧
    (decodeChar w).wellFormed = true ∧ encode (decodeChar w) = some (.char21, w.toNat)

/-! ## The step, reset, and the whole machine -/

/-- A step runs the decoded instruction: during a DRAW the character at the program counter; idle, an operation of a
sub-unit invoked directly, else the host's next move. At the end of the string the DRAW returns Ok, and with nothing to
do the block stays as it is. One character a step and the two ports are the model's grain (log 10, log 11, log 12). -/
def Obligations.StepRunsTheDecodedInstruction : Prop :=
  (∀ (s : State) (str : List Char21) (w : Char21), s.waiting = none → s.call = some str → str[s.pc]? = some w →
    step s = exec (decodeChar w) s) ∧
  (∀ (s : State) (str : List Char21), s.waiting = none → s.call = some str → s.pc = str.length →
    step s = .next { s with replies := s.replies ++ [.ok], call := none, pc := 0, tr := Transient.empty }) ∧
  (∀ (s : State) (i : { i : Instr // i.isDirect = true }), Idle s → s.direct = some i →
    step s = exec i.val { s with direct := none }) ∧
  (∀ (s : State) (rest : List Request), Idle s → s.direct = none →
    (∀ x y, s.requests = .init x y :: rest → step s = exec (.init x y) { s with requests := rest }) ∧
    (∀ str, s.requests = .draw str :: rest → step s = exec (.draw str) { s with requests := rest }) ∧
    (∀ w, s.requests = .putc w :: rest → step s = exec (decodeChar w) { s with requests := rest }) ∧
    (s.requests = .getpos :: rest → step s = exec .getpos { s with requests := rest })) ∧
  (∀ s : State, Idle s → s.direct = none → s.requests = [] → step s = .next s)

/-- Right after reset no INIT has been executed, no DRAW is in progress, no transient value exists, no result is stored, and
SCALE, COORD_W, COLOR_W, DOMAIN_POLICY and ATLAS_LEN have the spec's defaults; that reset holds the defaults, where R28 says
the configured values, is the model's reading (log 2). -/
def Obligations.ResetHoldsTheSpecValues : Prop :=
  State.reset.initialised = false ∧ State.reset.call = none ∧ State.reset.tr = Transient.empty ∧
  State.reset.waiting = none ∧ State.reset.replies = [] ∧ State.reset.cfg.scale = 2 ∧
  State.reset.cfg.coordW = 32 ∧ State.reset.cfg.colorW = 16 ∧
  State.reset.cfg.policy = .reject ∧ State.reset.cfg.atlasLen.val = 1024

/-- The invariant holds at reset. For CX and CY it speaks of the launch pair, the model's free value (log 1), and for the
program counter of its resting value 0, the model's choice (log 12). -/
def Obligations.ResetMeetsTheInvariant : Prop := Invariant State.reset

/-- Every step keeps the invariant: the atlas keeps its canonical form, CX and CY hold COORD_W bits, a DRAW in progress
is at a place of its string of scalar values, outside one the program counter is 0, and a fill without an answer is the
last one issued, the only one, and outstanding. The canonical list (log 4), the resting program counter (log 12) and
the form of an outstanding fill (log 8) are the model's. -/
def Obligations.StepKeepsTheInvariant : Prop :=
  ∀ s t : State, Invariant s → step s = .next t → Invariant t

/-- No instruction changes the configuration or the atlas. -/
def Obligations.NoInstructionChangesAtlasOrConfiguration : Prop :=
  ∀ (i : Instr) (s t : State), exec i s = .next t → t.atlas = s.atlas ∧ t.cfg = s.cfg

/-- Only INIT writes CY, and only INIT, PUTC and CA.ADVANCE write CX. -/
def Obligations.OnlyInitWritesCyAndTheAdvanceWritesCx : Prop :=
  ∀ (i : Instr) (s t : State), exec i s = .next t →
    (t.cy ≠ s.cy → ∃ x y, i = .init x y) ∧
    (t.cx ≠ s.cx → (∃ x y, i = .init x y) ∨ i = .caAdvance ∨ isPutc i = true)

/-- A step moves CX only by an INIT of the host or by 4*SCALE at the end of a character that completed: CA.ADVANCE is
invoked by PUTC alone, and only after the blit returned Ok. -/
def Obligations.AStepMovesTheCursorOnlyByInitOrACompletedCharacter : Prop :=
  ∀ s t : State, step s = .next t → t.cx ≠ s.cx →
    (∃ x y rest, Idle s ∧ s.direct = none ∧ s.requests = .init x y :: rest) ∨
    (t.cx = moved s.cfg s.cx (4 * s.cfg.scale) ∧ t.waiting = none ∧
      (∀ r ∈ t.trace.drop s.trace.length, r.answer = .ok) ∧
      ((∃ str, s.call = some str ∧ t.call = some str ∧ t.pc = s.pc + 1) ∨
        (s.call = none ∧ s.direct = none ∧ (∃ w rest, s.requests = .putc w :: rest) ∧ t.replies = s.replies ++ [.ok])))

/-- A step only adds to the trace and to the results: at most 32 fills, of which all but the last were answered Ok, and
at most one result. -/
def Obligations.StepAddsAtMostThirtyTwoFills : Prop :=
  ∀ s t : State, step s = .next t →
    ∃ (new : List FillRecord) (rs : List Reply),
      t.trace = s.trace ++ new ∧ new.length ≤ 32 ∧ t.replies = s.replies ++ rs ∧ rs.length ≤ 1 ∧
      ∀ r ∈ new.dropLast, r.answer = .ok

/-- During a DRAW a step moves the program counter to the next character, or ends the call, or leaves a fill outstanding
with the program counter where it is: it never goes back. -/
def Obligations.ProgramCounterNeverGoesBack : Prop :=
  ∀ (s t : State) (str : List Char21), s.call = some str → step s = .next t →
    (t.call = some str ∧ t.pc = s.pc + 1 ∧ t.waiting = none) ∨ (t.call = none ∧ t.pc = 0) ∨
      (t.call = some str ∧ t.pc = s.pc ∧ t.waiting ≠ none)

/-- A fill that is never answered stops the machine: the command is issued once, the operation does not return, and there
is no further step; and nothing that waits for the answer can be started. -/
def Obligations.SilentSurfaceHangsTheBlock : Prop :=
  (∀ (s : State) (x y : Coord) (w h : Nat) (rest : List Answer), s.waiting = none → s.answers = .never :: rest →
    ∃ t, exec (.bcFill x y w h) s = .next t ∧
      t.waiting = some { rect := ⟨moved s.cfg x 0, moved s.cfg y 0, w, h⟩, col := s.cfg.fg } ∧
      t.trace = s.trace ++
        [{ cmd := { rect := ⟨moved s.cfg x 0, moved s.cfg y 0, w, h⟩, col := s.cfg.fg }, answer := .never }] ∧
      t.replies = s.replies ∧ t.cx = s.cx ∧ step t = .fault .surfaceSilent) ∧
  (∀ s : State, s.waiting ≠ none →
    step s = .fault .surfaceSilent ∧
    (∀ x y, exec (.init x y) s = .refused .blockBusy) ∧ (∀ str, exec (.draw str) s = .refused .blockBusy) ∧
    exec .getpos s = .refused .blockBusy ∧ (∀ c, isScalar c = true → exec (decodeChar c) s = .refused .blockBusy) ∧
    (∀ x y w h, exec (.bcFill x y w h) s = .refused .blockBusy) ∧
    (∀ bm ox oy, exec (.bcBlit bm ox oy) s = .refused .blockBusy) ∧ exec .caAdvance s = .refused .blockBusy)

/-- The surface's error is only passed on: renaming every error that occurs in a state commutes with every instruction,
as long as the state lists the answers to all the fills one instruction can make. -/
def Obligations.SurfaceErrorsAreNeverInspected : Prop :=
  ∀ (f : SurfErr → SurfErr) (i : Instr) (s : State), 32 ≤ s.answers.length →
    exec i (renameErrors f s) = mapNext (renameErrors f) (exec i s)

/-- The results returned and the fills issued so far, and the operations still to be issued, have no influence on what an
instruction does. -/
def Obligations.HistoryHasNoInfluence : Prop :=
  ∀ (i : Instr) (s : State) (h : List FillRecord) (r : List Reply) (q : List Request)
    (d : Option { i : Instr // i.isDirect = true }),
    exec i { s with trace := h ++ s.trace, replies := r ++ s.replies, requests := q, direct := d } =
      mapNext (fun t => { t with trace := h ++ t.trace, replies := r ++ t.replies, requests := q, direct := d })
        (exec i s)

/-! ## The glyph indexer -/

/-- GI.SEL gives the first UTF-8 code unit of R52's table. -/
def Obligations.SelGivesTheLeadByte : Prop :=
  ∀ (s : State) (c : Char21), isScalar c = true →
    exec (.giSel c) s =
      .next { s with tr := { s.tr with ch := some c, sel := some (BitVec.ofNat 8 (leadByte c.toNat)) } }

/-- GI.DOMAIN passes a character below U+0080, and any other only under LEADING_BYTE; under REJECT that one raises
UnsupportedCharacter. That the raise adds Err to the results when GI.DOMAIN is invoked by itself is the model's choice
(log 28). -/
def Obligations.DomainPassesAsciiOrByPolicy : Prop :=
  ∀ (s : State) (c : Char21), isScalar c = true →
    (c.toNat < 0x80 ∨ s.cfg.policy = .leadingByte →
      exec (.giDomain c) s = .next { s with tr := { s.tr with ch := some c } }) ∧
    (0x80 ≤ c.toNat ∧ s.cfg.policy = .reject →
      exec (.giDomain c) s = .next (raised s (.unsupportedCharacter c)))

/-- GI.SPLIT gives the quotient and the remainder of the selector by 16. -/
def Obligations.SplitGivesQuotientAndRemainder : Prop :=
  ∀ (s : State) (sel : Byte),
    exec (.giSplit sel) s =
      .next { s with tr := { s.tr with sel := some sel, upper := some (BitVec.ofNat 4 (sel.toNat / 16)),
                                       lower := some (BitVec.ofNat 4 (sel.toNat % 16)) } }

/-- GI.INDEX gives 64*upper + lower div 2, which is upper, three zero bits and the top three bits of lower side by
side. -/
def Obligations.IndexConcatenatesItsFields : Prop :=
  ∀ (s : State) (upper lower : Nib),
    exec (.giIndex upper lower) s =
      .next { s with tr := { s.tr with upper := some upper, lower := some lower,
                                       startOffset := some (BitVec.ofNat 10 (64 * upper.toNat + lower.toNat / 2)) } } ∧
    BitVec.ofNat 10 (64 * upper.toNat + lower.toNat / 2) = upper ++ 0#3 ++ lower.extractLsb' 1 3 ∧
    64 * upper.toNat + lower.toNat / 2 ≤ 967

/-- GI.PAR gives lower mod 2. -/
def Obligations.ParIsLowerModTwo : Prop :=
  ∀ (s : State) (lower : Nib),
    exec (.giPar lower) s =
      .next { s with tr := { s.tr with lower := some lower, par := some (decide (lower.toNat % 2 = 1)) } }

/-- GI.BOUNDS passes exactly when start_offset + 57 <= ATLAS_LEN; otherwise it raises UnsupportedCharacter with the
character being looked up. That it runs for an offset of any form (log 23), and that its raise adds Err to the results when
it is invoked by itself (log 28), are the model's choices. -/
def Obligations.BoundsPassesWhenTheLastReadIsInside : Prop :=
  ∀ (s : State) (off : Offset),
    (off.toNat + 57 ≤ s.cfg.atlasLen.val →
      exec (.giBounds off) s = .next { s with tr := { s.tr with startOffset := some off } }) ∧
    (∀ c, s.tr.ch = some c → s.cfg.atlasLen.val ≤ off.toNat + 56 →
      exec (.giBounds off) s = .next (raised s (.unsupportedCharacter c)))

/-- GI.BOUNDS raises UnsupportedCharacter also when no character is being looked up. That it may be issued then, and that
the payload is then a free value, are the model's choices (log 11, log 16), as are that it runs for an offset of any form
(log 23) and that the raise adds Err to the results (log 28). -/
def Obligations.BoundsRaisesOutsideALookupToo : Prop :=
  ∀ (s : State) (off : Offset), s.tr.ch = none → s.cfg.atlasLen.val ≤ off.toNat + 56 →
    ∃ c, exec (.giBounds off) s = .next (raised s (.unsupportedCharacter c))

/-- GI.LOOKUP gives the offset and the parity of an accepted character, and raises UnsupportedCharacter for any other.
That the raise adds Err to the results when GI.LOOKUP is invoked by itself is the model's choice (log 28). -/
def Obligations.LookupFindsTheCellOrRaises : Prop :=
  ∀ (s : State) (c : Char21), isScalar c = true →
    (Accepted s.cfg c →
      exec (.giLookup c) s =
        .next { s with tr := { Transient.empty with
          ch := some c, sel := some (BitVec.ofNat 8 (leadByte c.toNat)),
          upper := some (BitVec.ofNat 4 (leadByte c.toNat / 16)),
          lower := some (BitVec.ofNat 4 (leadByte c.toNat % 16)),
          startOffset := some (BitVec.ofNat 10 (cellStart (leadByte c.toNat))),
          par := some (decide (leadByte c.toNat % 2 = 1)) } }) ∧
    (¬ Accepted s.cfg c → exec (.giLookup c) s = .next (raised s (.unsupportedCharacter c)))

/-- On the full atlas every cell of the 16 by 16 grid passes the bounds check and all its row addresses are below 1024;
address 1023 is reached, and no shorter atlas holds every cell. -/
def Obligations.FullAtlasIsTheSmallestThatHoldsEveryCell : Prop :=
  (∀ (sel : Byte), boundsOk 1024 (startOffsetOf (upperOf sel) (lowerOf sel)) = true ∧
    ∀ i : Fin 8, rowAddr (startOffsetOf (upperOf sel) (lowerOf sel)) i ≤ 1023) ∧
  rowAddr (startOffsetOf (upperOf 0xFE) (lowerOf 0xFE)) 7 = 1023 ∧
  rowAddr (startOffsetOf (upperOf 0xFF) (lowerOf 0xFF)) 7 = 1023 ∧
  (∀ n < 1024, ∃ sel : Byte, boundsOk n (startOffsetOf (upperOf sel) (lowerOf sel)) = false)

/-- Two different characters of the supported domain are found in different cells; outside it, under LEADING_BYTE,
characters with the same first code unit are found in the same cell. -/
def Obligations.LookupIsInjectiveOnTheDomain : Prop :=
  (∀ (cfg : BlockConfig) (c d : Char21), cfg.atlasLen.val = 1024 → c.toNat < 0x80 → d.toNat < 0x80 →
    lookup cfg c = lookup cfg d → c = d) ∧
  (∀ (cfg : BlockConfig) (c d : Char21), cfg.policy = .leadingByte → leadByte c.toNat = leadByte d.toNat →
    lookup cfg c = lookup cfg d)

/-! ## The rasterizer -/

/-- GR.ADDR gives start_offset + 8*i, which for an operand of the start_offset form is upper, the row and the byte column
side by side. It runs in every state, whether or not GI.BOUNDS passes, and for an operand of another form it gives the
same sum where ten bits hold it (log 15); beyond them some address, which is the model's free value. -/
def Obligations.AddrInsertsTheRow : Prop :=
  (∀ (s : State) (upper : Nib) (colbyte : BitVec 3) (i : Fin 8),
    exec (.grAddr (upper ++ 0#3 ++ colbyte) i) s =
      .next { s with tr := { s.tr with startOffset := some (upper ++ 0#3 ++ colbyte), i := some i,
                                       addr := some (upper ++ BitVec.ofNat 3 i.val ++ colbyte) } } ∧
    (upper ++ BitVec.ofNat 3 i.val ++ colbyte).toNat = (upper ++ 0#3 ++ colbyte).toNat + 8 * i.val) ∧
  (∀ (s : State) (off : Offset) (i : Fin 8), ∃ a : Offset,
    exec (.grAddr off i) s =
      .next { s with tr := { s.tr with startOffset := some off, i := some i, addr := some a } } ∧
    (off.toNat + 8 * i.val < 1024 → a.toNat = off.toNat + 8 * i.val))

/-- GR.LOAD gives the atlas byte at an address inside the atlas, and has no meaning outside it. -/
def Obligations.LoadReadsInsideTheAtlasOnly : Prop :=
  ∀ (s : State) (a : Offset),
    (a.toNat < s.cfg.atlasLen.val →
      exec (.grLoad a) s =
        .next { s with tr := { s.tr with addr := some a, byte := some (s.atlas.read a.toNat) } }) ∧
    (s.cfg.atlasLen.val ≤ a.toNat → exec (.grLoad a) s = .refused .atlasOutOfRange)

/-- GR.NIB gives the high nibble for parity 0 and the low nibble for parity 1. -/
def Obligations.NibTakesTheNibbleOfTheParity : Prop :=
  ∀ (s : State) (b : Byte),
    exec (.grNib b false) s =
      .next { s with tr := { s.tr with byte := some b, par := some false,
                                       nib := some (BitVec.ofNat 4 (b.toNat / 16)) } } ∧
    exec (.grNib b true) s =
      .next { s with tr := { s.tr with byte := some b, par := some true,
                                       nib := some (BitVec.ofNat 4 (b.toNat % 16)) } }

/-- GR.RASTER on the offset and parity of a cell gives the bitmap whose pixel (i, j) is bit 7 - j - 4*par of
ATLAS[64*upper + 8*i + lower div 2]. -/
def Obligations.RasterReadsThePixelsOfTheCell : Prop :=
  ∀ (s : State) (sel : Byte), cellStart sel.toNat + 57 ≤ s.cfg.atlasLen.val →
    ∃ bm : Bitmap,
      exec (.grRaster (BitVec.ofNat 10 (cellStart sel.toNat)) (decide (sel.toNat % 2 = 1))) s =
        .next { s with tr := { s.tr with startOffset := some (BitVec.ofNat 10 (cellStart sel.toNat)),
                                         par := some (decide (sel.toNat % 2 = 1)), bm := some bm } } ∧
      ∀ i < 8, ∀ j < 4, bitmapOn bm i j = pixelOn s.atlas sel.toNat i j

/-- GR.RASTER takes from each of the eight bytes at start_offset + 8*i the nibble of the parity, wherever GI.BOUNDS passes.
That it runs also for an offset that does not have the start_offset form is the model's choice (log 23). -/
def Obligations.RasterTakesOneNibbleOfEachByte : Prop :=
  ∀ (s : State) (off : Offset) (par : Bool), off.toNat + 57 ≤ s.cfg.atlasLen.val →
    ∃ bm : Bitmap,
      exec (.grRaster off par) s =
        .next { s with tr := { s.tr with startOffset := some off, par := some par, bm := some bm } } ∧
      ∀ i : Fin 8, bm[i] = (s.atlas.read (off.toNat + 8 * i.val)).extractLsb' (if par then 0 else 4) 4

/-- GR.RASTER has no meaning where GI.BOUNDS does not pass; the refusal is the model's form of that (log 15). -/
def Obligations.RasterNeedsTheBoundsCheck : Prop :=
  ∀ (s : State) (off : Offset) (par : Bool), s.cfg.atlasLen.val ≤ off.toNat + 56 →
    exec (.grRaster off par) s = .refused .atlasOutOfRange

/-! ## The blitter -/

/-- BC.TEST gives bit 3 - j of the nibble. -/
def Obligations.TestReadsTheBitFromTheLeft : Prop :=
  ∀ (s : State) (n : Nib) (j : Fin 4),
    exec (.bcTest n j) s =
      .next { s with tr := { s.tr with nib := some n, j := some j,
                                       bit := some (decide (n.toNat / 2 ^ (3 - j.val) % 2 = 1)) } }

/-- BC.RECT gives the SCALE by SCALE rectangle at (ox + j*SCALE, oy + i*SCALE), modulo 2^COORD_W. -/
def Obligations.RectIsTheMagnifiedPixel : Prop :=
  ∀ (s : State) (ox oy : Coord) (i : Fin 8) (j : Fin 4), InWidth s.cfg ox → InWidth s.cfg oy →
    exec (.bcRect ox oy i j) s =
      .next { s with tr := { s.tr with ox := some ox, oy := some oy, i := some i, j := some j,
                                       rect := some (pixelFill s.cfg ox oy i.val j.val).rect } }

/-- An integer that COORD_W bits do not hold counts, wherever an operand is a coordinate, as the coordinate of its low
COORD_W bits: the model's choice (log 23). So the statements for coordinates cover every operand. -/
def Obligations.WideOperandsCountAsTheirLowBits : Prop :=
  ∀ (s : State) (x y : Coord),
    InWidth s.cfg (moved s.cfg x 0) ∧ InWidth s.cfg (moved s.cfg y 0) ∧
    exec (.init x y) s = exec (.init (moved s.cfg x 0) (moved s.cfg y 0)) s ∧
    (∀ i j, exec (.bcRect x y i j) s = exec (.bcRect (moved s.cfg x 0) (moved s.cfg y 0) i j) s) ∧
    (∀ w h, exec (.bcFill x y w h) s = exec (.bcFill (moved s.cfg x 0) (moved s.cfg y 0) w h) s) ∧
    (∀ bm, exec (.bcBlit bm x y) s = exec (.bcBlit bm (moved s.cfg x 0) (moved s.cfg y 0)) s)

/-- Where no corner of the 32 pixel rectangles wraps, they tile the glyph's cell: each pixel of the 4*SCALE by 8*SCALE cell
at (ox, oy), and no other, is covered, and by one rectangle only. This is the spec's own inference in
`42_blitter_controller.md` section 1. -/
def Obligations.PixelRectanglesTileTheCell : Prop :=
  ∀ (cfg : BlockConfig) (ox oy : Int), InWidth cfg ox → InWidth cfg oy →
    ox + 3 * cfg.scale < 2 ^ (cfg.coordW - 1) → oy + 7 * cfg.scale < 2 ^ (cfg.coordW - 1) →
    ∀ px py : Int,
      ((∃ (i : Fin 8) (j : Fin 4), covers (pixelRect cfg ox oy i j) px py = true) ↔
        ox ≤ px ∧ px < ox + 4 * cfg.scale ∧ oy ≤ py ∧ py < oy + 8 * cfg.scale) ∧
      ∀ (i i' : Fin 8) (j j' : Fin 4), covers (pixelRect cfg ox oy i j) px py = true →
        covers (pixelRect cfg ox oy i' j') px py = true → i = i' ∧ j = j'

/-- BC.FILL issues one command with the foreground colour; an Ok answer ends it, an error raises SurfaceWriteFailure with
that error. Ok leaves no result of its own (log 28), and a size of 0 is sent as it is (log 23). -/
def Obligations.FillIssuesOneCommand : Prop :=
  ∀ (s : State) (x y : Coord) (w h : Nat) (rest : List Answer), s.waiting = none → InWidth s.cfg x → InWidth s.cfg y →
    (s.answers = .ok :: rest →
      exec (.bcFill x y w h) s =
        .next { filled s [{ rect := ⟨x, y, w, h⟩, col := s.cfg.fg }] rest with
                tr := { s.tr with rect := some ⟨x, y, w, h⟩ } }) ∧
    (∀ e, s.answers = .err e :: rest →
      exec (.bcFill x y w h) s =
        .next (raised (filledUntil s [] { rect := ⟨x, y, w, h⟩, col := s.cfg.fg } e rest)
          (.surfaceWriteFailure e)))

/-- BC.BLIT with every fill answered Ok issues one fill for each set pixel, rows top to bottom and columns left to right,
as many as MASK32 has set bits, and changes nothing else. Ok leaves no result of its own (log 28). -/
def Obligations.BlitFillsEverySetPixelInOrder : Prop :=
  ∀ (s : State) (bm : Bitmap) (ox oy : Coord) (rest : List Answer), s.waiting = none →
    InWidth s.cfg ox → InWidth s.cfg oy →
    s.answers = List.replicate (fillsOf s.cfg (bitmapOn bm) ox oy).length .ok ++ rest →
    exec (.bcBlit bm ox oy) s =
      .next { filled s (fillsOf s.cfg (bitmapOn bm) ox oy) rest with
              tr := { s.tr with bm := some bm, ox := some ox, oy := some oy } } ∧
    (fillsOf s.cfg (bitmapOn bm) ox oy).length = popcount bm

/-- BC.BLIT stops at the first fill answered with an error: that fill is the last one issued, the earlier ones stay, and
SurfaceWriteFailure is raised with that error. That the raise adds Err to the results when BC.BLIT is invoked by itself is
the model's choice (log 28). -/
def Obligations.BlitStopsAtTheFirstFailure : Prop :=
  ∀ (s : State) (bm : Bitmap) (ox oy : Coord) (pre post : List FillCmd) (bad : FillCmd) (e : SurfErr)
    (rest : List Answer), s.waiting = none → InWidth s.cfg ox → InWidth s.cfg oy →
    fillsOf s.cfg (bitmapOn bm) ox oy = pre ++ bad :: post →
    s.answers = List.replicate pre.length .ok ++ .err e :: rest →
    exec (.bcBlit bm ox oy) s = .next (raised (filledUntil s pre bad e rest) (.surfaceWriteFailure e))

/-- BC.BLIT with a fill that is never answered hangs at it: that fill is the last one issued, it is outstanding with its
rectangle and the bitmap latched, nothing else but the other transient values changes, and there is no further step. The
form of the stop is the model's choice (log 8). -/
def Obligations.BlitHangsAtASilentFill : Prop :=
  ∀ (s : State) (bm : Bitmap) (ox oy : Coord) (pre post : List FillCmd) (bad : FillCmd) (rest : List Answer),
    s.waiting = none → InWidth s.cfg ox → InWidth s.cfg oy →
    fillsOf s.cfg (bitmapOn bm) ox oy = pre ++ bad :: post →
    s.answers = List.replicate pre.length .ok ++ .never :: rest →
    ∃ tr : Transient, tr.bm = some bm ∧ tr.rect = some bad.rect ∧
      exec (.bcBlit bm ox oy) s = .next { hung s pre bad rest with tr := tr } ∧
      step { hung s pre bad rest with tr := tr } = .fault .surfaceSilent

/-- Whatever the surface answers, BC.FILL and BC.BLIT write no register, no configuration and nothing of the ports but the
trace and the answers used; the call in progress and its bitmap stay as they are, unless the operation raises
SurfaceWriteFailure, which ends the call with that one result. That Ok adds no result and a raise adds one when the
operation is invoked by itself is the model's choice (log 28). -/
def Obligations.BlitterWritesNoRegister : Prop :=
  ∀ (i : Instr) (s t : State), ((∃ x y w h, i = .bcFill x y w h) ∨ ∃ bm ox oy, i = .bcBlit bm ox oy) →
    exec i s = .next t →
    t.cx = s.cx ∧ t.cy = s.cy ∧ t.initialised = s.initialised ∧ t.cfg = s.cfg ∧ t.atlas = s.atlas ∧
      t.requests = s.requests ∧ t.direct = s.direct ∧ (∃ new, t.trace = s.trace ++ new) ∧
      ((t.call = s.call ∧ t.pc = s.pc ∧ t.replies = s.replies ∧
          (∀ x y w h, i = .bcFill x y w h → t.tr.bm = s.tr.bm) ∧
          (∀ bm ox oy, i = .bcBlit bm ox oy → t.tr.bm = some bm)) ∨
        (t.call = none ∧ t.pc = 0 ∧ ∃ e, t.replies = s.replies ++ [.err (.surfaceWriteFailure e)]))

/-! ## The cursor and the host operations -/

/-- INIT writes the cursor pair, returns nothing, and touches nothing else; no other operation writes CY or sets the
bit that an INIT has been executed. That bit is the model's (log 1), and so is the recorded result 'nothing' (log 19).
-/
def Obligations.InitWritesTheCursor : Prop :=
  (∀ (s : State) (x0 y0 : Coord), Idle s → InWidth s.cfg x0 → InWidth s.cfg y0 →
    exec (.init x0 y0) s =
      .next { s with initialised := true, cx := x0, cy := y0, replies := s.replies ++ [.nothing] }) ∧
  (∀ (i : Instr) (s t : State), exec i s = .next t → t.cy ≠ s.cy ∨ t.initialised ≠ s.initialised →
    ∃ x y, i = .init x y)

/-- GETPOS returns the cursor pair and has no effect. Before the first INIT that is the launch pair (log 1). -/
def Obligations.GetposReturnsTheCursor : Prop :=
  ∀ s : State, Idle s → exec .getpos s = .next { s with replies := s.replies ++ [.pos s.cx s.cy] }

/-- CA.ADVANCE adds 4*SCALE to CX modulo 2^COORD_W and leaves CY and everything else; before the first INIT too, on the
launch pair (log 1). -/
def Obligations.AdvanceMovesRightByTheCellWidth : Prop :=
  ∀ s : State, s.waiting = none → exec .caAdvance s = .next { s with cx := moved s.cfg s.cx (4 * s.cfg.scale) }

/-- Before the first INIT the operations that read the cursor run from the pair the cursor holds, the launch pair: DRAW
starts, GETPOS returns the pair, PUTC runs, and the block has still not been initialised. R28 gives a model the choice
between this and a refusal; taking the launch pair is the model's choice (log 1). -/
def Obligations.OperationsRunFromTheLaunchPair : Prop :=
  ∀ s : State, Idle s → s.initialised = false →
    (∀ str : List Char21, (∀ c ∈ str, isScalar c = true) →
      exec (.draw str) s = .next { s with call := some str, pc := 0, tr := Transient.empty }) ∧
    exec .getpos s = .next { s with replies := s.replies ++ [.pos s.cx s.cy] } ∧
    (∀ c, isScalar c = true → ∃ t, exec (decodeChar c) s = .next t ∧ t.initialised = false)

/-- Taking the launch state as a pair is the same thing as requiring one INIT first: INIT with that pair changes nothing but
that the block has been initialised and the result 'nothing', and whether it has been initialised has no influence on what
any instruction does. That the pair is there without an INIT is the model's choice (log 1). -/
def Obligations.LaunchPairIsTheSameAsOneInitFirst : Prop :=
  (∀ s : State, Idle s → CursorInWidth s →
    exec (.init s.cx s.cy) s = .next { s with initialised := true, replies := s.replies ++ [.nothing] }) ∧
  (∀ (i : Instr) (s : State) (b : Bool), s.initialised = false →
    exec i { s with initialised := b } = mapNext (fun t => { t with initialised := t.initialised || b }) (exec i s))

/-- While a DRAW is in progress INIT, GETPOS and a second DRAW are refused, the model's form of 'has no meaning' (log 13). -/
def Obligations.HostOperationsAreRefusedDuringADraw : Prop :=
  ∀ (s : State) (str : List Char21), s.call = some str →
    (∀ x y, exec (.init x y) s = .refused .blockBusy) ∧ (∀ t, exec (.draw t) s = .refused .blockBusy) ∧
    exec .getpos s = .refused .blockBusy

/-- The words that are no Unicode scalar values are refused in every state, as instructions, as operands of the
indexer's operations, and in the string of a DRAW on an idle block; that an operand and a whole string are refused so
is the model's reading of R58 (log 14). -/
def Obligations.NonScalarWordsAreRefused : Prop :=
  ∀ s : State,
    (∀ low, exec (.illegalSurrogate low) s = .refused .notScalarValue) ∧
    (∀ word, exec (.illegalAbove word) s = .refused .notScalarValue) ∧
    (∀ w : Char21, (0xD800 ≤ w.toNat ∧ w.toNat ≤ 0xDFFF) ∨ 0x110000 ≤ w.toNat →
      exec (decodeChar w) s = .refused .notScalarValue ∧ exec (.giSel w) s = .refused .notScalarValue ∧
      exec (.giDomain w) s = .refused .notScalarValue ∧ exec (.giLookup w) s = .refused .notScalarValue ∧
      (Idle s → ∀ before after, exec (.draw (before ++ w :: after)) s = .refused .notScalarValue))

/-- PUTC of a character of the supported domain, with every fill answered Ok: the fills of the cell its code names,
drawn at the cursor, then the advance and Ok; under either policy. Before the first INIT the cursor is the launch pair
(log 1). -/
def Obligations.PutcDrawsAnInDomainCharacter : Prop :=
  ∀ (s : State) (u : BitVec 3) (l : Nib) (rest : List Answer), s.waiting = none →
    cellStart (16 * u.toNat + l.toNat) + 57 ≤ s.cfg.atlasLen.val →
    s.answers =
      List.replicate (glyphFills s.cfg s.atlas (16 * u.toNat + l.toNat) s.cx s.cy).length .ok ++ rest →
    exec (.putcU1 u l) s =
      .next (afterPutc s (glyphFills s.cfg s.atlas (16 * u.toNat + l.toNat) s.cx s.cy) rest)

/-- PUTC of a character outside the supported domain under LEADING_BYTE whose cell lies in the atlas, with every fill
answered Ok: the fills of the cell its first code unit names, then the advance and Ok. Before the first INIT the
cursor is the launch pair (log 1). -/
def Obligations.PutcDrawsByTheLeadByte : Prop :=
  ∀ (s : State) (rest : List Answer), s.waiting = none → s.cfg.policy = .leadingByte →
    (∀ top low, (Instr.putcU2 top low).wellFormed = true → cellStart (0xC0 + top.toNat) + 57 ≤ s.cfg.atlasLen.val →
      s.answers = List.replicate (glyphFills s.cfg s.atlas (0xC0 + top.toNat) s.cx s.cy).length .ok ++ rest →
      exec (.putcU2 top low) s =
        .next (afterPutc s (glyphFills s.cfg s.atlas (0xC0 + top.toNat) s.cx s.cy) rest)) ∧
    (∀ top low, (Instr.putcU3 top low).wellFormed = true → cellStart (0xE0 + top.toNat) + 57 ≤ s.cfg.atlasLen.val →
      s.answers = List.replicate (glyphFills s.cfg s.atlas (0xE0 + top.toNat) s.cx s.cy).length .ok ++ rest →
      exec (.putcU3 top low) s =
        .next (afterPutc s (glyphFills s.cfg s.atlas (0xE0 + top.toNat) s.cx s.cy) rest)) ∧
    (∀ top low, (Instr.putcU4Low top low).wellFormed = true → cellStart (0xF0 + top.toNat) + 57 ≤ s.cfg.atlasLen.val →
      s.answers = List.replicate (glyphFills s.cfg s.atlas (0xF0 + top.toNat) s.cx s.cy).length .ok ++ rest →
      exec (.putcU4Low top low) s =
        .next (afterPutc s (glyphFills s.cfg s.atlas (0xF0 + top.toNat) s.cx s.cy) rest)) ∧
    (∀ low, cellStart 0xF4 + 57 ≤ s.cfg.atlasLen.val →
      s.answers = List.replicate (glyphFills s.cfg s.atlas 0xF4 s.cx s.cy).length .ok ++ rest →
      exec (.putcU4High low) s =
        .next (afterPutc s (glyphFills s.cfg s.atlas 0xF4 s.cx s.cy) rest))

/-- PUTC of a character that is not accepted raises UnsupportedCharacter with that character before any effect: no
fill, no cursor movement. Before the first INIT the cursor is the launch pair (log 1). -/
def Obligations.PutcRaisesUnsupportedCharacter : Prop :=
  ∀ (s : State) (c : Char21), s.waiting = none → isScalar c = true → ¬ Accepted s.cfg c →
    exec (decodeChar c) s = .next (raised s (.unsupportedCharacter c))

/-- PUTC of an accepted character whose fills fail at one of them: the fills up to and with that one, no cursor
movement, and SurfaceWriteFailure with the surface's error. Before the first INIT the cursor is the launch pair (log
1). -/
def Obligations.PutcRaisesSurfaceWriteFailure : Prop :=
  ∀ (s : State) (c : Char21) (pre post : List FillCmd) (bad : FillCmd) (e : SurfErr) (rest : List Answer),
    s.waiting = none → isScalar c = true → Accepted s.cfg c →
    glyphFills s.cfg s.atlas (leadByte c.toNat) s.cx s.cy = pre ++ bad :: post →
    s.answers = List.replicate pre.length .ok ++ .err e :: rest →
    exec (decodeChar c) s = .next (raised (filledUntil s pre bad e rest) (.surfaceWriteFailure e))

/-- PUTC of an accepted character one of whose fills is never answered hangs at it: the fills up to and with that one stand
in the trace, it is outstanding with its rectangle latched, the cursor, the call, the program counter and the results are as
they were, and there is no further step. The form of the stop is the model's choice (log 8). Before the first INIT the
cursor is the launch pair (log 1). -/
def Obligations.PutcHangsAtASilentFill : Prop :=
  ∀ (s : State) (c : Char21) (pre post : List FillCmd) (bad : FillCmd) (rest : List Answer),
    s.waiting = none → isScalar c = true → Accepted s.cfg c →
    glyphFills s.cfg s.atlas (leadByte c.toNat) s.cx s.cy = pre ++ bad :: post →
    s.answers = List.replicate pre.length .ok ++ .never :: rest →
    ∃ tr : Transient, tr.rect = some bad.rect ∧
      exec (decodeChar c) s = .next { hung s pre bad rest with tr := tr } ∧
      step { hung s pre bad rest with tr := tr } = .fault .surfaceSilent

/-- Whatever the surface answers, PUTC moves the cursor exactly when it succeeds, and writes nothing else of what
persists. Before the first INIT the cursor is the launch pair (log 1). -/
def Obligations.PutcAdvancesExactlyOnSuccess : Prop :=
  ∀ (i : Instr) (s t : State), isPutc i = true → exec i s = .next t →
    t.cy = s.cy ∧ t.initialised = s.initialised ∧ t.cfg = s.cfg ∧ t.atlas = s.atlas ∧
    t.requests = s.requests ∧ t.direct = s.direct ∧
    ((t.cx = moved s.cfg s.cx (4 * s.cfg.scale) ∧ t.waiting = none ∧
        t.replies = if s.call.isSome then s.replies else s.replies ++ [.ok]) ∨
      (t.cx = s.cx ∧ t.waiting = none ∧ t.call = none ∧ ∃ x, t.replies = s.replies ++ [.err x]) ∨
      (t.cx = s.cx ∧ t.waiting ≠ none ∧ t.call = s.call ∧ t.replies = s.replies))

/-- PUTC reads no atlas byte but the eight of its cell: two atlases that agree on them are not told apart. -/
def Obligations.PutcReadsOnlyTheEightBytesOfItsCell : Prop :=
  ∀ (s : State) (c : Char21) (m : Memory),
    (∀ i < 8, m.read (cellStart (leadByte c.toNat) + 8 * i) = s.atlas.read (cellStart (leadByte c.toNat) + 8 * i)) →
    exec (decodeChar c) { s with atlas := m } = mapNext (fun t => { t with atlas := m }) (exec (decodeChar c) s)

/-- Under REJECT, PUTC reads only atlas addresses 0 to 511. -/
def Obligations.RejectReadsOnlyTheLowerHalf : Prop :=
  ∀ (s : State) (c : Char21) (m : Memory), s.cfg.policy = .reject →
    (∀ a < 512, m.read a = s.atlas.read a) →
    exec (decodeChar c) { s with atlas := m } = mapNext (fun t => { t with atlas := m }) (exec (decodeChar c) s)

/-! ## The render call -/

/-- DRAW of the empty string makes no fill, leaves the cursor, and returns Ok. That the launch is one step and the Ok
comes from the step after it is the model's grain (log 12). Before the first INIT the cursor is the launch pair (log
1). -/
def Obligations.DrawOfTheEmptyStringReturnsOk : Prop :=
  ∀ s : State, Idle s →
    ∃ t, exec (.draw []) s = .next t ∧
      step t = .next { s with replies := s.replies ++ [.ok], pc := 0, tr := Transient.empty }

/-- DRAW of a string of N accepted characters with every fill answered Ok: it starts with the program counter at 0,
and N steps and the return later the fills of the characters stand in the trace in order, each character 4*SCALE to
the right of the one before it, CX has moved by N*4*SCALE modulo 2^COORD_W, CY has not, and the result is Ok. One
character a step and the return in a step of its own are the model's grain (log 12). Before the first INIT the cursor
is the launch pair (log 1). -/
def Obligations.DrawRendersItsStringInOrder : Prop :=
  ∀ (s : State) (str : List Char21) (rest : List Answer), Idle s →
    InWidth s.cfg s.cx → (∀ c ∈ str, isScalar c = true ∧ Accepted s.cfg c) →
    s.answers = List.replicate (textFills s.cfg s.atlas str s.cx s.cy).length .ok ++ rest →
    ∃ t, exec (.draw str) s = .next t ∧ t.call = some str ∧ t.pc = 0 ∧
      run (str.length + 1) t =
        .next { filled s (textFills s.cfg s.atlas str s.cx s.cy) rest with
                cx := moved s.cfg s.cx (str.length * (4 * s.cfg.scale)),
                replies := s.replies ++ [.ok], pc := 0, tr := Transient.empty }

/-- DRAW of a string whose characters are accepted up to one that is not: the fills of the characters before it, CX at
that character's origin, and UnsupportedCharacter with it; the characters after it are not looked at. One character a
step is the model's grain (log 12). Before the first INIT the cursor is the launch pair (log 1). -/
def Obligations.DrawStopsAtAnUnsupportedCharacter : Prop :=
  ∀ (s : State) (before after : List Char21) (c : Char21) (rest : List Answer), Idle s →
    InWidth s.cfg s.cx → (∀ d ∈ before, isScalar d = true ∧ Accepted s.cfg d) → isScalar c = true →
    (∀ d ∈ after, isScalar d = true) → ¬ Accepted s.cfg c →
    s.answers = List.replicate (textFills s.cfg s.atlas before s.cx s.cy).length .ok ++ rest →
    ∃ t, exec (.draw (before ++ c :: after)) s = .next t ∧
      run (before.length + 1) t =
        .next (raised { filled s (textFills s.cfg s.atlas before s.cx s.cy) rest with
                        cx := moved s.cfg s.cx (before.length * (4 * s.cfg.scale)) }
          (.unsupportedCharacter c))

/-- DRAW whose fills fail inside a character: the fills of the characters before it and its own up to and with the
failed one, CX at its origin, and SurfaceWriteFailure; no later character is processed. One character a step is the
model's grain (log 12). Before the first INIT the cursor is the launch pair (log 1). -/
def Obligations.DrawStopsAtAFailedFill : Prop :=
  ∀ (s : State) (before after : List Char21) (c : Char21) (pre post : List FillCmd) (bad : FillCmd) (e : SurfErr)
    (rest : List Answer), Idle s →
    InWidth s.cfg s.cx → (∀ d ∈ before, isScalar d = true ∧ Accepted s.cfg d) → isScalar c = true →
    (∀ d ∈ after, isScalar d = true) → Accepted s.cfg c →
    glyphFills s.cfg s.atlas (leadByte c.toNat)
      (moved s.cfg s.cx (before.length * (4 * s.cfg.scale))) s.cy = pre ++ bad :: post →
    s.answers =
      List.replicate ((textFills s.cfg s.atlas before s.cx s.cy).length + pre.length) .ok ++ .err e :: rest →
    ∃ t, exec (.draw (before ++ c :: after)) s = .next t ∧
      run (before.length + 1) t =
        .next (raised { filledUntil s (textFills s.cfg s.atlas before s.cx s.cy ++ pre) bad e rest with
                        cx := moved s.cfg s.cx (before.length * (4 * s.cfg.scale)) }
          (.surfaceWriteFailure e))

/-- The cursor carries over: when the first of two DRAWs returns Ok, the two together make the same fills and end in
the same cursor as one DRAW of the joined string, and the second returns what that one returns. The run lengths are
the model's grain (log 12). Before the first INIT the cursor is the launch pair (log 1). -/
def Obligations.TwoDrawsAreOneDrawOfTheJoinedString : Prop :=
  ∀ (s u : State) (a b : List Char21), Idle s → s.requests = [] → s.direct = none →
    (∀ c ∈ b, isScalar c = true) →
    drawRun a (a.length + 1) s = .next u → u.replies = s.replies ++ [.ok] →
    drawRun b (b.length + 1) u =
      mapNext (fun t => { t with replies := s.replies ++ .ok :: t.replies.drop s.replies.length })
        (drawRun (a ++ b) (a.length + b.length + 1) s)
end

