-- ==== Sys2Proof/Laws/Operands.lean ====
section
/-! SUPPORT. The operand functions in the terms of the spec's tables (Safety.lean): selector and leading byte, offset and
cell start, the lookup and its two checks, the bitmap and its pixels, the blitter's scan and the pixel order. -/

namespace Sys2Proof.Machine

open Sys2Proof.Safety

/-! ## The glyph indexer -/

/-- GI.SEL is R52's table. -/
theorem selector_toNat (c : Char21) : (selector c).toNat = leadByte c.toNat := by
  have hc := c.isLt
  unfold selector leadByte
  by_cases h1 : c.toNat ≤ 0x7F
  · rw [if_pos h1, if_pos (by omega), BitVec.extractLsb'_toNat, Nat.shiftRight_zero]
    exact Nat.mod_eq_of_lt (by omega)
  rw [if_neg h1, if_neg (by omega : ¬ c.toNat < 0x80)]
  by_cases h2 : c.toNat ≤ 0x7FF
  · rw [if_pos h2, if_pos (by omega)]
    simp only [BitVec.toNat_add, BitVec.toNat_setWidth, BitVec.extractLsb'_toNat, Nat.shiftRight_eq_div_pow,
      BitVec.toNat_ofNat]
    omega
  rw [if_neg h2, if_neg (by omega : ¬ c.toNat < 0x800)]
  by_cases h3 : c.toNat ≤ 0xFFFF
  · rw [if_pos h3, if_pos (by omega)]
    simp only [BitVec.toNat_add, BitVec.toNat_setWidth, BitVec.extractLsb'_toNat, Nat.shiftRight_eq_div_pow,
      BitVec.toNat_ofNat]
    omega
  rw [if_neg h3, if_neg (by omega : ¬ c.toNat < 0x10000)]
  simp only [BitVec.toNat_add, BitVec.toNat_setWidth, BitVec.extractLsb'_toNat, Nat.shiftRight_eq_div_pow,
    BitVec.toNat_ofNat]
  omega

@[simp] theorem upperOf_toNat (sel : Byte) : (upperOf sel).toNat = sel.toNat / 16 := by
  have := sel.isLt
  rw [upperOf, BitVec.toNat_setWidth, BitVec.toNat_ushiftRight, Nat.shiftRight_eq_div_pow]
  omega

@[simp] theorem lowerOf_toNat (sel : Byte) : (lowerOf sel).toNat = sel.toNat % 16 := by
  rw [lowerOf, BitVec.toNat_setWidth, BitVec.toNat_and]
  simp only [BitVec.toNat_ofNat]
  rw [show (15 % 2 ^ 8 : Nat) = 2 ^ 4 - 1 from rfl, Nat.and_two_pow_sub_one_eq_mod]
  omega

/-- GI.INDEX as 64*upper + lower div 2 (R70). -/
theorem startOffsetOf_toNat (upper lower : Nib) :
    (startOffsetOf upper lower).toNat = 64 * upper.toNat + lower.toNat / 2 := by
  have := upper.isLt
  have := lower.isLt
  rw [startOffsetOf, BitVec.toNat_ofNat]
  simp only [Config.rowBytes_eq, Config.height_eq, Config.width_eq]
  omega

theorem startOffsetOf_sel_toNat (sel : Byte) :
    (startOffsetOf (upperOf sel) (lowerOf sel)).toNat = cellStart sel.toNat := by
  rw [startOffsetOf_toNat, upperOf_toNat, lowerOf_toNat, cellStart]

theorem parity_eq (lower : Nib) : parity lower = decide (lower.toNat % 2 = 1) := by
  rw [parity, BitVec.getLsbD, Nat.testBit_zero]

theorem parity_lowerOf (sel : Byte) : parity (lowerOf sel) = decide (sel.toNat % 2 = 1) := by
  rw [parity_eq, lowerOf_toNat]
  congr 1
  apply propext
  omega

theorem cellStart_le {sel : Nat} (h : sel < 256) : cellStart sel ≤ 967 := by
  unfold cellStart
  omega

theorem leadByte_lt (c : Char21) : leadByte c.toNat < 256 := by
  rw [← selector_toNat]
  exact (selector c).isLt

/-! ## The checks -/

theorem lastRead_eq (off : Offset) : lastRead off = off.toNat + 56 := rfl

theorem boundsOk_iff {n : Nat} {off : Offset} : boundsOk n off = true ↔ off.toNat + 57 ≤ n := by
  rw [boundsOk, lastRead_eq, decide_eq_true_eq]
  omega

theorem domainOk_iff {p : DomainPolicy} {c : Char21} :
    domainOk p c = true ↔ c.toNat < 0x80 ∨ p = .leadingByte := by
  rw [domainOk, Bool.or_eq_true, decide_eq_true_eq, decide_eq_true_eq]
  exact or_congr_left (by omega)

/-- GI.LOOKUP of an accepted character (R73). -/
theorem lookup_of_accepted {cfg : BlockConfig} {c : Char21} (h : Accepted cfg c) :
    lookup cfg c =
      some (BitVec.ofNat 10 (cellStart (leadByte c.toNat)), decide (leadByte c.toNat % 2 = 1)) := by
  have hoff : startOffsetOf (upperOf (selector c)) (lowerOf (selector c)) =
      BitVec.ofNat 10 (cellStart (leadByte c.toNat)) := by
    apply BitVec.eq_of_toNat_eq
    have := cellStart_le (leadByte_lt c)
    rw [startOffsetOf_sel_toNat, selector_toNat, BitVec.toNat_ofNat, Nat.mod_eq_of_lt (by omega)]
  have hb : boundsOk cfg.atlasLen.val (startOffsetOf (upperOf (selector c)) (lowerOf (selector c))) = true := by
    rw [boundsOk_iff, startOffsetOf_sel_toNat, selector_toNat]
    exact h.2
  rw [hoff] at hb
  simp only [lookup, if_pos (domainOk_iff.mpr h.1), parity_lowerOf, selector_toNat, hoff, if_pos hb]

/-- GI.LOOKUP of any other character (R73). -/
theorem lookup_of_not_accepted {cfg : BlockConfig} {c : Char21} (h : ¬ Accepted cfg c) : lookup cfg c = none := by
  simp only [lookup]
  split
  · rename_i hd
    rw [if_neg]
    intro hb
    rw [boundsOk_iff, startOffsetOf_sel_toNat, selector_toNat] at hb
    exact h ⟨domainOk_iff.mp hd, hb⟩
  · rfl

/-! ## The pixels -/

/-- The bit a test of a rasterised row reads is the pixel's atlas bit (R82). -/
theorem testBit_nibble (b : Byte) (odd : Bool) (j : Fin 4) :
    testBit (nibble b odd) j = b.getLsbD (7 - j.val - 4 * odd.toNat) := by
  unfold testBit nibble
  cases odd <;> simp [BitVec.getLsbD_extractLsb'] <;> (fin_cases j <;> simp)

theorem testBit_eq_bitmapOn (bm : Bitmap) (i : Fin 8) (j : Fin 4) :
    testBit bm[i] j = bitmapOn bm i.val j.val := by
  unfold testBit bitmapOn
  simp [List.getD_eq_getElem?_getD]

/-- The bitmap GR.RASTER makes of a cell holds the cell's pixels (R82). -/
theorem bitmapOn_raster (m : Memory) {sel : Nat} (hs : sel < 256) {i j : Nat} (hi : i < 8) (hj : j < 4) :
    bitmapOn (raster m.read (BitVec.ofNat 10 (cellStart sel)) (decide (sel % 2 = 1))) i j = pixelOn m sel i j := by
  have h := testBit_eq_bitmapOn (raster m.read (BitVec.ofNat 10 (cellStart sel)) (decide (sel % 2 = 1))) ⟨i, hi⟩ ⟨j, hj⟩
  have hc := cellStart_le hs
  rw [← h]
  simp only [raster, Fin.getElem_fin, Vector.getElem_ofFn, testBit_nibble, pixelOn, rowAddr, BitVec.toNat_ofNat,
    Config.rowBytes_eq]
  rw [Nat.mod_eq_of_lt (by omega), Nat.mul_comm i 8]
  congr 1
  have : sel % 2 = 0 ∨ sel % 2 = 1 := by omega
  rcases this with h0 | h0 <;> simp [h0]

/-! ## Scan order and rectangles -/

/-- The blitter visits the pixels in the order of 4*i + j (R87). -/
theorem scan_eq : scan = (List.finRange 32).map fun p =>
    ((⟨p.val / 4, by omega⟩ : Fin 8), (⟨p.val % 4, by omega⟩ : Fin 4)) := by decide

theorem pixelRect_eq (cfg : BlockConfig) (ox oy : Coord) (i : Fin 8) (j : Fin 4) :
    pixelRect cfg ox oy i j = (pixelFill cfg ox oy i.val j.val).rect := rfl

theorem advanceX_eq (cfg : BlockConfig) (x : Coord) :
    advanceX cfg.coordW cfg.scale x = moved cfg x (4 * cfg.scale) := rfl

/-! ## Coordinates (R9, R90) -/

/-- A legal SCALE leaves room for at least one bit beside the sign (R8). -/
theorem two_pow_coordW (cfg : BlockConfig) : (2 : Nat) ^ cfg.coordW = 2 * 2 ^ (cfg.coordW - 1) := by
  obtain ⟨h1, h2⟩ := cfg.scaleLegal
  cases hw : cfg.coordW with
  | zero => rw [hw] at h2; omega
  | succ n => rw [Nat.pow_succ, Nat.mul_comm, Nat.add_sub_cancel]

/-- A narrowed integer is a coordinate of the instance. -/
theorem narrow_inWidth (cfg : BlockConfig) (v : Int) : InWidth cfg (narrow cfg.coordW v) := by
  have hp := two_pow_coordW cfg
  have hpos : 0 < 2 ^ cfg.coordW := Nat.two_pow_pos _
  have h1 := Int.le_bmod (x := v) hpos
  have h2 := Int.bmod_lt (x := v) hpos
  have hc : ((2 ^ (cfg.coordW - 1) : Nat) : Int) = 2 ^ (cfg.coordW - 1) := by push_cast; rfl
  unfold narrow InWidth
  omega

theorem moved_inWidth (cfg : BlockConfig) (x : Int) (n : Nat) : InWidth cfg (moved cfg x n) := narrow_inWidth cfg (x + n)

/-- A coordinate is its own narrowing. -/
theorem narrow_of_inWidth {cfg : BlockConfig} {x : Int} (h : InWidth cfg x) : narrow cfg.coordW x = x := by
  have hp := two_pow_coordW cfg
  have hc : ((2 ^ (cfg.coordW - 1) : Nat) : Int) = 2 ^ (cfg.coordW - 1) := by push_cast; rfl
  unfold InWidth at h
  exact Int.bmod_eq_of_le (by omega) (by omega)

/-- A sum with zero is the narrowing: what a coordinate outside COORD_W bits counts as. -/
theorem moved_zero_eq (cfg : BlockConfig) (x : Int) : moved cfg x 0 = narrow cfg.coordW x := by simp [moved, narrow]

theorem moved_zero {cfg : BlockConfig} {x : Int} (h : InWidth cfg x) : moved cfg x 0 = x := by
  rw [moved_zero_eq, narrow_of_inWidth h]

/-- Sums of coordinates add up modulo 2^COORD_W. -/
theorem moved_moved (cfg : BlockConfig) (x : Int) (m n : Nat) : moved cfg (moved cfg x m) n = moved cfg x (m + n) := by
  simp only [moved, Int.bmod_add_bmod, Nat.cast_add, Int.add_assoc]

end Sys2Proof.Machine
end

