-- ==== Sys2Proof/Laws/Decode.lean ====
section
/-! SUPPORT. The CHAR21 rows: which words a row's mask and match select, what a class's fields give back as a character,
and that the machine runs PUTC of a decoded scalar value and refuses every other word (R51, R52, R58). -/

namespace Sys2Proof

open Sys2Proof.Machine Sys2Proof.Safety

/-! ## Masks -/

/-- A mask of the bits from k up keeps the multiple of 2^k below the word. -/
theorem and_highMask_toNat (w m : Char21) (k : Nat) (hm : ∀ i < 21, m.getLsbD i = decide (k ≤ i)) :
    (w &&& m).toNat = w.toNat / 2 ^ k * 2 ^ k := by
  have h : w &&& m = (w >>> k) <<< k := by
    apply BitVec.eq_of_getLsbD_eq
    intro i hi
    rw [BitVec.getLsbD_and, hm i hi, BitVec.getLsbD_shiftLeft, BitVec.getLsbD_ushiftRight]
    by_cases hk : k ≤ i
    · simp [hi, hk, Nat.not_lt.mpr hk, Nat.add_sub_cancel' hk]
    · simp [hk, Nat.lt_of_not_le hk]
  have hw := w.isLt
  have hle : w.toNat / 2 ^ k * 2 ^ k ≤ w.toNat := Nat.div_mul_le_self _ _
  rw [h, BitVec.toNat_shiftLeft, BitVec.toNat_ushiftRight, Nat.shiftRight_eq_div_pow, Nat.shiftLeft_eq,
    Nat.mod_eq_of_lt (by omega)]

theorem mask7 (w : Char21) : (w &&& 0x1FFF80#21).toNat = w.toNat / 128 * 128 :=
  and_highMask_toNat w _ 7 (by decide)
theorem mask11 (w : Char21) : (w &&& 0x1FF800#21).toNat = w.toNat / 2048 * 2048 :=
  and_highMask_toNat w _ 11 (by decide)
theorem mask16 (w : Char21) : (w &&& 0x1F0000#21).toNat = w.toNat / 65536 * 65536 :=
  and_highMask_toNat w _ 16 (by decide)
theorem mask20 (w : Char21) : (w &&& 0x100000#21).toNat = w.toNat / 1048576 * 1048576 :=
  and_highMask_toNat w _ 20 (by decide)

theorem row1_iff (w : Char21) : w &&& 0x1FFF80#21 = 0x000000#21 ↔ w.toNat ≤ 0x7F := by
  rw [← BitVec.toNat_inj, mask7]; simp only [BitVec.toNat_ofNat]; omega
theorem row2_iff (w : Char21) : w &&& 0x1FF800#21 = 0x000000#21 ↔ w.toNat ≤ 0x7FF := by
  rw [← BitVec.toNat_inj, mask11]; simp only [BitVec.toNat_ofNat]; omega
theorem row3_iff (w : Char21) : w &&& 0x1FF800#21 = 0x00D800#21 ↔ 0xD800 ≤ w.toNat ∧ w.toNat ≤ 0xDFFF := by
  rw [← BitVec.toNat_inj, mask11]; simp only [BitVec.toNat_ofNat]; omega
theorem row4_iff (w : Char21) : w &&& 0x1F0000#21 = 0x000000#21 ↔ w.toNat ≤ 0xFFFF := by
  rw [← BitVec.toNat_inj, mask16]; simp only [BitVec.toNat_ofNat]; omega
theorem row5_iff (w : Char21) : w &&& 0x100000#21 = 0x000000#21 ↔ w.toNat ≤ 0xFFFFF := by
  have := w.isLt
  rw [← BitVec.toNat_inj, mask20]; simp only [BitVec.toNat_ofNat]; omega
theorem row6_iff (w : Char21) :
    w &&& 0x1F0000#21 = 0x100000#21 ↔ 0x100000 ≤ w.toNat ∧ w.toNat ≤ 0x10FFFF := by
  rw [← BitVec.toNat_inj, mask16]; simp only [BitVec.toNat_ofNat]; omega

/-- The decoder by ranges instead of masks. -/
theorem decodeChar_eq (w : Char21) : decodeChar w =
    if w.toNat ≤ 0x7F then .putcU1 (w.extractLsb' 4 3) (w.extractLsb' 0 4)
    else if w.toNat ≤ 0x7FF then .putcU2 (w.extractLsb' 6 5) (w.extractLsb' 0 6)
    else if 0xD800 ≤ w.toNat ∧ w.toNat ≤ 0xDFFF then .illegalSurrogate (w.extractLsb' 0 11)
    else if w.toNat ≤ 0xFFFF then .putcU3 (w.extractLsb' 12 4) (w.extractLsb' 0 12)
    else if w.toNat ≤ 0xFFFFF then .putcU4Low (w.extractLsb' 18 2) (w.extractLsb' 0 18)
    else if 0x100000 ≤ w.toNat ∧ w.toNat ≤ 0x10FFFF then .putcU4High (w.extractLsb' 0 16)
    else .illegalAbove w := by
  simp only [decodeChar, row1_iff, row2_iff, row3_iff, row4_iff, row5_iff, row6_iff]

/-! ## The character of a class's fields -/

@[simp] theorem append_toNat' {m n : Nat} (a : BitVec m) (b : BitVec n) :
    (a ++ b).toNat = a.toNat * 2 ^ n + b.toNat := by
  rw [BitVec.toNat_append, ← Nat.shiftLeft_add_eq_or_of_lt b.isLt, Nat.shiftLeft_eq]

theorem charU1_toNat (u : BitVec 3) (l : Nib) : (charU1 u l).toNat = 16 * u.toNat + l.toNat := by
  have := u.isLt; have := l.isLt
  rw [charU1, BitVec.toNat_setWidth, append_toNat']; omega
theorem charU2_toNat (top : BitVec 5) (low : BitVec 6) : (charU2 top low).toNat = 64 * top.toNat + low.toNat := by
  have := top.isLt; have := low.isLt
  rw [charU2, BitVec.toNat_setWidth, append_toNat']; omega
theorem charSurrogate_toNat (low : BitVec 11) : (charSurrogate low).toNat = 0xD800 + low.toNat := by
  rw [charSurrogate, append_toNat']; simp only [BitVec.toNat_ofNat]; omega
theorem charU3_toNat (top : BitVec 4) (low : BitVec 12) : (charU3 top low).toNat = 4096 * top.toNat + low.toNat := by
  have := top.isLt; have := low.isLt
  rw [charU3, BitVec.toNat_setWidth, append_toNat']; omega
theorem charU4Low_toNat (top : BitVec 2) (low : BitVec 18) :
    (charU4Low top low).toNat = 262144 * top.toNat + low.toNat := by
  have := top.isLt; have := low.isLt
  rw [charU4Low, BitVec.toNat_setWidth, append_toNat']; omega
theorem charU4High_toNat (low : BitVec 16) : (charU4High low).toNat = 0x100000 + low.toNat := by
  rw [charU4High, append_toNat']; simp only [BitVec.toNat_ofNat]; omega

/-! ## Decoded words -/

/-- The fields of a word side by side are the word again. -/
theorem fields_append (w : Char21) (k n : Nat) (h : w.toNat < 2 ^ (k + n)) :
    ((w.extractLsb' k n ++ w.extractLsb' 0 k).setWidth 21 : Char21) = w := by
  apply BitVec.eq_of_toNat_eq
  have hd : w.toNat / 2 ^ k < 2 ^ n := by
    rw [Nat.div_lt_iff_lt_mul (Nat.two_pow_pos k), ← Nat.pow_add, Nat.add_comm n k]; exact h
  have hw := w.isLt
  rw [BitVec.toNat_setWidth, append_toNat', BitVec.extractLsb'_toNat, BitVec.extractLsb'_toNat,
    Nat.shiftRight_eq_div_pow, Nat.shiftRight_zero, Nat.mod_eq_of_lt hd, Nat.div_add_mod' w.toNat (2 ^ k),
    Nat.mod_eq_of_lt hw]

theorem isScalar_iff (c : Char21) :
    isScalar c = true ↔ c.toNat < 0xD800 ∨ (0xDFFF < c.toNat ∧ c.toNat ≤ 0x10FFFF) := by
  simp [isScalar]

/-- The machine runs PUTC of a decoded scalar value (R51, R97). -/
theorem exec_decodeChar {c : Char21} (h : isScalar c = true) (s : State) : exec (decodeChar c) s = putc c s := by
  rw [isScalar_iff] at h
  rw [decodeChar_eq]
  split
  · exact congrArg (putc · s) (fields_append c 4 3 (by omega))
  split
  · exact congrArg (putc · s) (fields_append c 6 5 (by omega))
  split
  · omega
  split
  · exact congrArg (putc · s) (fields_append c 12 4 (by omega))
  split
  · exact congrArg (putc · s) (fields_append c 18 2 (by omega))
  split
  · refine congrArg (putc · s) (BitVec.eq_of_toNat_eq ?_)
    rw [charU4High_toNat, BitVec.extractLsb'_toNat, Nat.shiftRight_zero]
    omega
  · omega

/-- The machine refuses a decoded word that is no scalar value (R58). -/
theorem exec_decodeChar_refused {c : Char21} (h : isScalar c = false) (s : State) :
    exec (decodeChar c) s = .refused .notScalarValue := by
  have h' : ¬ (c.toNat < 0xD800 ∨ (0xDFFF < c.toNat ∧ c.toNat ≤ 0x10FFFF)) := by
    rw [← isScalar_iff, h]; decide
  rw [decodeChar_eq]
  split
  · omega
  split
  · omega
  split
  · rfl
  split
  · omega
  split
  · omega
  split
  · omega
  · rfl

/-- Every decoded word is well-formed. -/
theorem decodeChar_wellFormed (c : Char21) : (decodeChar c).wellFormed = true := by
  have hc := c.isLt
  rw [decodeChar_eq]
  split
  · rfl
  split
  · simp only [Instr.wellFormed, decide_eq_true_eq, BitVec.extractLsb'_toNat, Nat.shiftRight_eq_div_pow]; omega
  split
  · rfl
  split
  · simp only [Instr.wellFormed, Bool.and_eq_true, Bool.or_eq_true, decide_eq_true_eq, BitVec.extractLsb'_toNat,
      Nat.shiftRight_eq_div_pow]; omega
  split
  · simp only [Instr.wellFormed, Bool.or_eq_true, decide_eq_true_eq, BitVec.extractLsb'_toNat,
      Nat.shiftRight_eq_div_pow]; omega
  split
  · rfl
  · simp only [Instr.wellFormed, decide_eq_true_eq]; omega

/-- A scalar value decodes to a PUTC. -/
theorem isPutc_decodeChar {c : Char21} (h : isScalar c = true) : isPutc (decodeChar c) = true := by
  rw [isScalar_iff] at h
  rw [decodeChar_eq]
  split
  · rfl
  split
  · rfl
  split
  · omega
  split
  · rfl
  split
  · rfl
  split
  · rfl
  · omega

/-! ## Well-formed fields -/

/-- A well-formed class U2 word is a scalar value. -/
theorem charU2_isScalar (top : BitVec 5) (low : BitVec 6) : isScalar (charU2 top low) = true := by
  have := top.isLt; have := low.isLt
  rw [isScalar_iff, charU2_toNat]; omega
theorem charU1_isScalar (u : BitVec 3) (l : Nib) : isScalar (charU1 u l) = true := by
  have := u.isLt; have := l.isLt
  rw [isScalar_iff, charU1_toNat]; omega
theorem charU3_isScalar {top : BitVec 4} {low : BitVec 12} (h : (Instr.putcU3 top low).wellFormed = true) :
    isScalar (charU3 top low) = true := by
  have := top.isLt; have := low.isLt
  simp only [Instr.wellFormed, Bool.and_eq_true, Bool.or_eq_true, decide_eq_true_eq] at h
  rw [isScalar_iff, charU3_toNat]; omega
theorem charU4Low_isScalar {top : BitVec 2} {low : BitVec 18} (h : (Instr.putcU4Low top low).wellFormed = true) :
    isScalar (charU4Low top low) = true := by
  have := top.isLt; have := low.isLt
  simp only [Instr.wellFormed, Bool.or_eq_true, decide_eq_true_eq] at h
  rw [isScalar_iff, charU4Low_toNat]; omega
theorem charU4High_isScalar (low : BitVec 16) : isScalar (charU4High low) = true := by
  have := low.isLt
  rw [isScalar_iff, charU4High_toNat]; omega

end Sys2Proof
end

