-- ==== Sys2Proof/Laws/State.lean ====
section
/-! SUPPORT. What each named update of the state does to each field, and what each named operation leaves alone, so that
no later proof unfolds a record update. -/

namespace Sys2Proof.Machine

/-! ## Returning a result (R20, R21, R24) -/

@[simp] theorem finish_cfg (r : Reply) (s : State) : (finish r s).cfg = s.cfg := rfl
@[simp] theorem finish_atlas (r : Reply) (s : State) : (finish r s).atlas = s.atlas := rfl
@[simp] theorem finish_initialised (r : Reply) (s : State) : (finish r s).initialised = s.initialised := rfl
@[simp] theorem finish_cx (r : Reply) (s : State) : (finish r s).cx = s.cx := rfl
@[simp] theorem finish_cy (r : Reply) (s : State) : (finish r s).cy = s.cy := rfl
@[simp] theorem finish_call (r : Reply) (s : State) : (finish r s).call = none := rfl
@[simp] theorem finish_pc (r : Reply) (s : State) : (finish r s).pc = 0 := rfl
@[simp] theorem finish_tr (r : Reply) (s : State) : (finish r s).tr = Transient.empty := rfl
@[simp] theorem finish_waiting (r : Reply) (s : State) : (finish r s).waiting = s.waiting := rfl
@[simp] theorem finish_direct (r : Reply) (s : State) : (finish r s).direct = s.direct := rfl
@[simp] theorem finish_requests (r : Reply) (s : State) : (finish r s).requests = s.requests := rfl
@[simp] theorem finish_replies (r : Reply) (s : State) : (finish r s).replies = s.replies ++ [r] := rfl
@[simp] theorem finish_trace (r : Reply) (s : State) : (finish r s).trace = s.trace := rfl
@[simp] theorem finish_answers (r : Reply) (s : State) : (finish r s).answers = s.answers := rfl
@[simp] theorem finish_drawn (r : Reply) (s : State) : (finish r s).drawn = s.drawn := rfl

/-! ## Taking an exception (R114) -/

@[simp] theorem raise_cfg (x : Exc) (s : State) : (raise x s).cfg = s.cfg := rfl
@[simp] theorem raise_atlas (x : Exc) (s : State) : (raise x s).atlas = s.atlas := rfl
@[simp] theorem raise_initialised (x : Exc) (s : State) : (raise x s).initialised = s.initialised := rfl
@[simp] theorem raise_cx (x : Exc) (s : State) : (raise x s).cx = s.cx := rfl
@[simp] theorem raise_cy (x : Exc) (s : State) : (raise x s).cy = s.cy := rfl
@[simp] theorem raise_call (x : Exc) (s : State) : (raise x s).call = none := rfl
@[simp] theorem raise_pc (x : Exc) (s : State) : (raise x s).pc = 0 := rfl
@[simp] theorem raise_tr (x : Exc) (s : State) : (raise x s).tr = Transient.empty := rfl
@[simp] theorem raise_waiting (x : Exc) (s : State) : (raise x s).waiting = s.waiting := rfl
@[simp] theorem raise_direct (x : Exc) (s : State) : (raise x s).direct = s.direct := rfl
@[simp] theorem raise_requests (x : Exc) (s : State) : (raise x s).requests = s.requests := rfl
@[simp] theorem raise_replies (x : Exc) (s : State) : (raise x s).replies = s.replies ++ [.err x] := rfl
@[simp] theorem raise_trace (x : Exc) (s : State) : (raise x s).trace = s.trace := rfl
@[simp] theorem raise_answers (x : Exc) (s : State) : (raise x s).answers = s.answers := rfl
@[simp] theorem raise_drawn (x : Exc) (s : State) : (raise x s).drawn = s.drawn := rfl

/-! ## Transient values (R21) -/

@[simp] theorem latch_tr (tr : Transient) (s : State) : (latch tr s).tr = tr := rfl
@[simp] theorem latch_cfg (tr : Transient) (s : State) : (latch tr s).cfg = s.cfg := rfl
@[simp] theorem latch_atlas (tr : Transient) (s : State) : (latch tr s).atlas = s.atlas := rfl
@[simp] theorem latch_initialised (tr : Transient) (s : State) : (latch tr s).initialised = s.initialised := rfl
@[simp] theorem latch_cx (tr : Transient) (s : State) : (latch tr s).cx = s.cx := rfl
@[simp] theorem latch_cy (tr : Transient) (s : State) : (latch tr s).cy = s.cy := rfl
@[simp] theorem latch_call (tr : Transient) (s : State) : (latch tr s).call = s.call := rfl
@[simp] theorem latch_pc (tr : Transient) (s : State) : (latch tr s).pc = s.pc := rfl
@[simp] theorem latch_waiting (tr : Transient) (s : State) : (latch tr s).waiting = s.waiting := rfl
@[simp] theorem latch_direct (tr : Transient) (s : State) : (latch tr s).direct = s.direct := rfl
@[simp] theorem latch_requests (tr : Transient) (s : State) : (latch tr s).requests = s.requests := rfl
@[simp] theorem latch_replies (tr : Transient) (s : State) : (latch tr s).replies = s.replies := rfl
@[simp] theorem latch_trace (tr : Transient) (s : State) : (latch tr s).trace = s.trace := rfl
@[simp] theorem latch_answers (tr : Transient) (s : State) : (latch tr s).answers = s.answers := rfl
@[simp] theorem latch_drawn (tr : Transient) (s : State) : (latch tr s).drawn = s.drawn := rfl

/-! ## The advance (R96) -/

@[simp] theorem advance_cfg (s : State) : (advance s).cfg = s.cfg := rfl
@[simp] theorem advance_atlas (s : State) : (advance s).atlas = s.atlas := rfl
@[simp] theorem advance_initialised (s : State) : (advance s).initialised = s.initialised := rfl
@[simp] theorem advance_cx (s : State) : (advance s).cx = advanceX s.cfg.coordW s.cfg.scale s.cx := rfl
@[simp] theorem advance_cy (s : State) : (advance s).cy = s.cy := rfl
@[simp] theorem advance_call (s : State) : (advance s).call = s.call := rfl
@[simp] theorem advance_pc (s : State) : (advance s).pc = s.pc := rfl
@[simp] theorem advance_tr (s : State) : (advance s).tr = s.tr := rfl
@[simp] theorem advance_waiting (s : State) : (advance s).waiting = s.waiting := rfl
@[simp] theorem advance_direct (s : State) : (advance s).direct = s.direct := rfl
@[simp] theorem advance_requests (s : State) : (advance s).requests = s.requests := rfl
@[simp] theorem advance_replies (s : State) : (advance s).replies = s.replies := rfl
@[simp] theorem advance_trace (s : State) : (advance s).trace = s.trace := rfl
@[simp] theorem advance_answers (s : State) : (advance s).answers = s.answers := rfl
@[simp] theorem advance_drawn (s : State) : (advance s).drawn = s.drawn := rfl

/-! ## The start of a glyph (R97) -/

@[simp] theorem beginGlyph_cfg (c : Char21) (off : Offset) (par : Bool) (bm : Bitmap) (s : State) :
    (beginGlyph c off par bm s).cfg = s.cfg := rfl
@[simp] theorem beginGlyph_atlas (c : Char21) (off : Offset) (par : Bool) (bm : Bitmap) (s : State) :
    (beginGlyph c off par bm s).atlas = s.atlas := rfl
@[simp] theorem beginGlyph_initialised (c : Char21) (off : Offset) (par : Bool) (bm : Bitmap) (s : State) :
    (beginGlyph c off par bm s).initialised = s.initialised := rfl
@[simp] theorem beginGlyph_cx (c : Char21) (off : Offset) (par : Bool) (bm : Bitmap) (s : State) :
    (beginGlyph c off par bm s).cx = s.cx := rfl
@[simp] theorem beginGlyph_cy (c : Char21) (off : Offset) (par : Bool) (bm : Bitmap) (s : State) :
    (beginGlyph c off par bm s).cy = s.cy := rfl
@[simp] theorem beginGlyph_call (c : Char21) (off : Offset) (par : Bool) (bm : Bitmap) (s : State) :
    (beginGlyph c off par bm s).call = s.call := rfl
@[simp] theorem beginGlyph_pc (c : Char21) (off : Offset) (par : Bool) (bm : Bitmap) (s : State) :
    (beginGlyph c off par bm s).pc = s.pc := rfl
@[simp] theorem beginGlyph_waiting (c : Char21) (off : Offset) (par : Bool) (bm : Bitmap) (s : State) :
    (beginGlyph c off par bm s).waiting = s.waiting := rfl
@[simp] theorem beginGlyph_direct (c : Char21) (off : Offset) (par : Bool) (bm : Bitmap) (s : State) :
    (beginGlyph c off par bm s).direct = s.direct := rfl
@[simp] theorem beginGlyph_requests (c : Char21) (off : Offset) (par : Bool) (bm : Bitmap) (s : State) :
    (beginGlyph c off par bm s).requests = s.requests := rfl
@[simp] theorem beginGlyph_replies (c : Char21) (off : Offset) (par : Bool) (bm : Bitmap) (s : State) :
    (beginGlyph c off par bm s).replies = s.replies := rfl
@[simp] theorem beginGlyph_trace (c : Char21) (off : Offset) (par : Bool) (bm : Bitmap) (s : State) :
    (beginGlyph c off par bm s).trace = s.trace := rfl
@[simp] theorem beginGlyph_answers (c : Char21) (off : Offset) (par : Bool) (bm : Bitmap) (s : State) :
    (beginGlyph c off par bm s).answers = s.answers := rfl
@[simp] theorem beginGlyph_drawn (c : Char21) (off : Offset) (par : Bool) (bm : Bitmap) (s : State) :
    (beginGlyph c off par bm s).drawn = s.drawn := rfl

/-! ## The end of a character (R20, R97) -/

@[simp] theorem charDone_cfg (s : State) : (charDone s).cfg = s.cfg := by
  unfold charDone; split <;> rfl
@[simp] theorem charDone_atlas (s : State) : (charDone s).atlas = s.atlas := by
  unfold charDone; split <;> rfl
@[simp] theorem charDone_initialised (s : State) : (charDone s).initialised = s.initialised := by
  unfold charDone; split <;> rfl
@[simp] theorem charDone_cx (s : State) : (charDone s).cx = s.cx := by
  unfold charDone; split <;> rfl
@[simp] theorem charDone_cy (s : State) : (charDone s).cy = s.cy := by
  unfold charDone; split <;> rfl
@[simp] theorem charDone_waiting (s : State) : (charDone s).waiting = s.waiting := by
  unfold charDone; split <;> rfl
@[simp] theorem charDone_direct (s : State) : (charDone s).direct = s.direct := by
  unfold charDone; split <;> rfl
@[simp] theorem charDone_requests (s : State) : (charDone s).requests = s.requests := by
  unfold charDone; split <;> rfl
@[simp] theorem charDone_trace (s : State) : (charDone s).trace = s.trace := by
  unfold charDone; split <;> rfl
@[simp] theorem charDone_answers (s : State) : (charDone s).answers = s.answers := by
  unfold charDone; split <;> rfl
@[simp] theorem charDone_drawn (s : State) : (charDone s).drawn = s.drawn := by
  unfold charDone; split <;> rfl
@[simp] theorem charDone_tr (s : State) : (charDone s).tr = Transient.empty := by
  unfold charDone; split <;> rfl
@[simp] theorem charDone_call (s : State) : (charDone s).call = s.call := by
  unfold charDone; split <;> simp_all
/-- Inside a DRAW a completed character moves the program counter on (R20). -/
theorem charDone_inside {s : State} {str : List Char21} (h : s.call = some str) :
    charDone s = { s with pc := s.pc + 1, tr := Transient.empty } := by
  simp [charDone, h]
/-- A completed PUTC of the host returns Ok (R97). -/
theorem charDone_outside {s : State} (h : s.call = none) : charDone s = finish .ok s := by
  simp [charDone, h]

end Sys2Proof.Machine
end

