-- ==== Sys2Proof/Laws/Fill.lean ====
section
/-! SUPPORT. One lemma for each way the fill transaction and the blitter's loop can go: all fills answered Ok, one of them
answered Err, and, for any answers at all, what is issued and what stays unchanged (R86, R87, R88, R92). -/

namespace Sys2Proof.Machine

open Sys2Proof.Safety

/-! ## One fill -/

theorem fill_of_ok {s : State} {rest : List Answer} (r : Rect) (h : s.answers = .ok :: rest) :
    fill r s = (.done, filled s [{ rect := r, col := s.cfg.fg }] rest) := by
  simp [fill, surfaceDraw, h, filled, answeredOk]

theorem fill_of_err {s : State} {rest : List Answer} {e : SurfErr} (r : Rect) (h : s.answers = .err e :: rest) :
    fill r s = (.failed e, filledUntil s [] { rect := r, col := s.cfg.fg } e rest) := by
  simp [fill, surfaceDraw, h, filledUntil, answeredOk]

theorem fill_of_never {s : State} {rest : List Answer} (r : Rect) (h : s.answers = .never :: rest) :
    fill r s = (.silent, hung s [] { rect := r, col := s.cfg.fg } rest) := by
  simp [fill, surfaceDraw, h, hung, answeredOk]

/-- Two states differ at most in the trace, the answers to come, the free draws taken, the outstanding fill and the
transient values: what the fills of an operation can touch (R92). -/
structure SameButFills (s t : State) : Prop where
  cfg : t.cfg = s.cfg
  atlas : t.atlas = s.atlas
  initialised : t.initialised = s.initialised
  cx : t.cx = s.cx
  cy : t.cy = s.cy
  call : t.call = s.call
  pc : t.pc = s.pc
  direct : t.direct = s.direct
  requests : t.requests = s.requests
  replies : t.replies = s.replies

theorem SameButFills.refl (s : State) : SameButFills s s := ⟨rfl, rfl, rfl, rfl, rfl, rfl, rfl, rfl, rfl, rfl⟩

theorem SameButFills.latch (s : State) (tr : Transient) : SameButFills s { s with tr := tr } :=
  ⟨rfl, rfl, rfl, rfl, rfl, rfl, rfl, rfl, rfl, rfl⟩

theorem SameButFills.trans {s t u : State} (h : SameButFills s t) (k : SameButFills t u) : SameButFills s u :=
  ⟨k.cfg.trans h.cfg, k.atlas.trans h.atlas, k.initialised.trans h.initialised, k.cx.trans h.cx, k.cy.trans h.cy,
    k.call.trans h.call, k.pc.trans h.pc, k.direct.trans h.direct, k.requests.trans h.requests, k.replies.trans h.replies⟩

/-- What a sequence of fills did: at most `n` new commands, all but the last answered Ok; the last one answered Ok if the
sequence is done, with the error if it failed, and outstanding if it is silent. -/
def Issued (n : Nat) (s t : State) : FillEnd → Prop
  | .done => ∃ new, t.trace = s.trace ++ new ∧ new.length ≤ n ∧ (∀ r ∈ new, r.answer = .ok) ∧ t.waiting = s.waiting
  | .failed e => ∃ new cmd, t.trace = s.trace ++ (new ++ [{ cmd := cmd, answer := .err e }]) ∧ new.length + 1 ≤ n ∧
      (∀ r ∈ new, r.answer = .ok) ∧ t.waiting = s.waiting
  | .silent => ∃ new cmd, t.trace = s.trace ++ (new ++ [{ cmd := cmd, answer := .never }]) ∧ new.length + 1 ≤ n ∧
      (∀ r ∈ new, r.answer = .ok) ∧ t.waiting = some cmd

theorem Issued.mono {m n : Nat} {s t : State} {f : FillEnd} (h : Issued m s t f) (hn : m ≤ n) : Issued n s t f := by
  cases f with
  | done => obtain ⟨new, h1, h2, h3⟩ := h; exact ⟨new, h1, by omega, h3⟩
  | failed e => obtain ⟨new, cmd, h1, h2, h3⟩ := h; exact ⟨new, cmd, h1, by omega, h3⟩
  | silent => obtain ⟨new, cmd, h1, h2, h3⟩ := h; exact ⟨new, cmd, h1, by omega, h3⟩

/-- Fills that all succeeded, and then more fills. -/
theorem Issued.append {m n : Nat} {s t u : State} {f : FillEnd} (h : Issued m s t .done) (k : Issued n t u f) :
    Issued (m + n) s u f := by
  obtain ⟨new, h1, h2, h3, h4⟩ := h
  have hok : ∀ new' : List FillRecord, (∀ r ∈ new', r.answer = .ok) → ∀ r ∈ new ++ new', r.answer = .ok :=
    fun new' h' r hr => (List.mem_append.mp hr).elim (h3 r) (h' r)
  cases f with
  | done =>
    obtain ⟨new', k1, k2, k3, k4⟩ := k
    exact ⟨new ++ new', by rw [k1, h1, List.append_assoc], by rw [List.length_append]; omega, hok new' k3, k4.trans h4⟩
  | failed e =>
    obtain ⟨new', cmd, k1, k2, k3, k4⟩ := k
    exact ⟨new ++ new', cmd, by rw [k1, h1, List.append_assoc, List.append_assoc],
      by rw [List.length_append]; omega, hok new' k3, k4.trans h4⟩
  | silent =>
    obtain ⟨new', cmd, k1, k2, k3, k4⟩ := k
    exact ⟨new ++ new', cmd, by rw [k1, h1, List.append_assoc, List.append_assoc],
      by rw [List.length_append]; omega, hok new' k3, k4⟩

theorem surfaceDraw_spec (s : State) :
    SameButFills s (surfaceDraw s).2 ∧ (surfaceDraw s).2.tr = s.tr ∧ (surfaceDraw s).2.trace = s.trace ∧
      (surfaceDraw s).2.waiting = s.waiting := by
  unfold surfaceDraw
  split <;> exact ⟨⟨rfl, rfl, rfl, rfl, rfl, rfl, rfl, rfl, rfl, rfl⟩, rfl, rfl, rfl⟩

/-- Everything one fill can do, for any answer. -/
theorem fill_spec {r : Rect} {s t : State} {f : FillEnd} (h : fill r s = (f, t)) :
    SameButFills s t ∧ t.tr = s.tr ∧ Issued 1 s t f := by
  obtain ⟨hs, ht, htr, hw⟩ := surfaceDraw_spec s
  unfold fill at h
  generalize surfaceDraw s = d at hs ht htr hw h
  obtain ⟨a, u⟩ := d
  have hu : SameButFills s u := hs
  simp only at h htr hw
  cases a with
  | ok =>
    obtain ⟨rfl, rfl⟩ := Prod.mk.inj h
    exact ⟨⟨hu.1, hu.2, hu.3, hu.4, hu.5, hu.6, hu.7, hu.8, hu.9, hu.10⟩, ht, [_], by rw [htr], by simp, by simp, hw⟩
  | err e =>
    obtain ⟨rfl, rfl⟩ := Prod.mk.inj h
    exact ⟨⟨hu.1, hu.2, hu.3, hu.4, hu.5, hu.6, hu.7, hu.8, hu.9, hu.10⟩, ht, [], _, by rw [htr]; rfl, by simp, by simp,
      hw⟩
  | never =>
    obtain ⟨rfl, rfl⟩ := Prod.mk.inj h
    exact ⟨⟨hu.1, hu.2, hu.3, hu.4, hu.5, hu.6, hu.7, hu.8, hu.9, hu.10⟩, ht, [], _, by rw [htr]; rfl, by simp, by simp,
      rfl⟩

/-! ## The blitter's loop -/

/-- The commands of the set pixels among those still to visit. -/
def pixelCmds (cfg : BlockConfig) (bm : Bitmap) (ox oy : Coord) (ps : List (Fin 8 × Fin 4)) : List FillCmd :=
  ps.filterMap fun p =>
    if testBit bm[p.1] p.2 then some { rect := pixelRect cfg ox oy p.1 p.2, col := cfg.fg } else none

/-- Over the whole scan they are the fills of the bitmap in the order of 4*i + j (R87). -/
theorem pixelCmds_scan (cfg : BlockConfig) (bm : Bitmap) (ox oy : Coord) :
    pixelCmds cfg bm ox oy scan = fillsOf cfg (bitmapOn bm) ox oy := by
  have hr : List.range 32 = (List.finRange 32).map (·.val) := by decide
  rw [pixelCmds, scan_eq, fillsOf, hr, List.filterMap_map, List.filterMap_map]
  apply List.filterMap_congr
  intro p _
  simp only [Function.comp_apply, testBit_eq_bitmapOn]
  rfl

@[simp] theorem filled_nil (s : State) : filled s [] s.answers = s := by simp [filled, answeredOk]

theorem filled_filled (s : State) (a b : List FillCmd) (r r' : List Answer) :
    filled (filled s a r) b r' = filled s (a ++ b) r' := by
  simp [filled, answeredOk]

/-- All fills answered Ok: every set pixel's command is issued, in order, and nothing else happens (R87, R89). -/
theorem blitFrom_of_ok (bm : Bitmap) (ox oy : Coord) (ps : List (Fin 8 × Fin 4)) :
    ∀ {s : State} {rest : List Answer},
      s.answers = List.replicate (pixelCmds s.cfg bm ox oy ps).length .ok ++ rest →
      blitFrom bm ox oy ps s = (.done, filled s (pixelCmds s.cfg bm ox oy ps) rest) := by
  induction ps with
  | nil =>
    intro s rest h
    have : rest = s.answers := by simpa [pixelCmds] using h.symm
    subst this
    simp [blitFrom, pixelCmds]
  | cons p ps ih =>
    intro s rest h
    by_cases hb : testBit bm[p.1] p.2 = true
    · have hc : pixelCmds s.cfg bm ox oy (p :: ps) =
          { rect := pixelRect s.cfg ox oy p.1 p.2, col := s.cfg.fg } :: pixelCmds s.cfg bm ox oy ps := by
        simp only [pixelCmds, List.filterMap_cons, hb, if_true]
      rw [hc, List.length_cons, List.replicate_succ, List.cons_append] at h
      have hf := fill_of_ok (pixelRect s.cfg ox oy p.1 p.2) h
      rw [hc, blitFrom, if_pos hb]
      simp only [hf]
      rw [ih (rest := rest) rfl, filled_filled]
      rfl
    · have hc : pixelCmds s.cfg bm ox oy (p :: ps) = pixelCmds s.cfg bm ox oy ps := by
        simp only [pixelCmds, List.filterMap_cons, if_neg hb]
      rw [hc] at h ⊢
      rw [blitFrom, if_neg hb]
      exact ih h

/-- One fill answered Err: the commands up to and with it are issued, and no later one (R88). -/
theorem blitFrom_of_err (bm : Bitmap) (ox oy : Coord) (ps : List (Fin 8 × Fin 4)) :
    ∀ {s : State} {pre post : List FillCmd} {bad : FillCmd} {e : SurfErr} {rest : List Answer},
      pixelCmds s.cfg bm ox oy ps = pre ++ bad :: post →
      s.answers = List.replicate pre.length .ok ++ .err e :: rest →
      blitFrom bm ox oy ps s = (.failed e, filledUntil s pre bad e rest) := by
  induction ps with
  | nil => intro s pre post bad e rest hc _; simp [pixelCmds] at hc
  | cons p ps ih =>
    intro s pre post bad e rest hc h
    by_cases hb : testBit bm[p.1] p.2 = true
    · have hc' : pixelCmds s.cfg bm ox oy (p :: ps) =
          { rect := pixelRect s.cfg ox oy p.1 p.2, col := s.cfg.fg } :: pixelCmds s.cfg bm ox oy ps := by
        simp only [pixelCmds, List.filterMap_cons, hb, if_true]
      rw [hc'] at hc
      rw [blitFrom, if_pos hb]
      cases pre with
      | nil =>
        obtain ⟨hbad, -⟩ := List.cons.inj hc
        have hf := fill_of_err (pixelRect s.cfg ox oy p.1 p.2) h
        simp only [hf, hbad]
      | cons c pre =>
        obtain ⟨hc1, hc2⟩ := List.cons.inj hc
        rw [List.length_cons, List.replicate_succ, List.cons_append] at h
        have hf := fill_of_ok (pixelRect s.cfg ox oy p.1 p.2) h
        simp only [hf]
        rw [ih (s := filled s _ _) (pre := pre) (post := post) (bad := bad) (e := e) (rest := rest) hc2 rfl, hc1]
        simp [filledUntil, filled, answeredOk]
    · have hc' : pixelCmds s.cfg bm ox oy (p :: ps) = pixelCmds s.cfg bm ox oy ps := by
        simp only [pixelCmds, List.filterMap_cons, if_neg hb]
      rw [hc'] at hc
      rw [blitFrom, if_neg hb]
      exact ih hc h

/-- One fill never answered: the commands up to and with it are issued, and the block waits on it with its rectangle still
latched (R135, R27). -/
theorem blitFrom_of_never (bm : Bitmap) (ox oy : Coord) (ps : List (Fin 8 × Fin 4)) :
    ∀ {s : State} {pre post : List FillCmd} {bad : FillCmd} {rest : List Answer},
      pixelCmds s.cfg bm ox oy ps = pre ++ bad :: post →
      s.answers = List.replicate pre.length .ok ++ .never :: rest →
      ∃ tr, tr.rect = some bad.rect ∧ blitFrom bm ox oy ps s = (.silent, { hung s pre bad rest with tr := tr }) := by
  induction ps with
  | nil => intro s pre post bad rest hc _; simp [pixelCmds] at hc
  | cons p ps ih =>
    intro s pre post bad rest hc h
    by_cases hb : testBit bm[p.1] p.2 = true
    · have hc' : pixelCmds s.cfg bm ox oy (p :: ps) =
          { rect := pixelRect s.cfg ox oy p.1 p.2, col := s.cfg.fg } :: pixelCmds s.cfg bm ox oy ps := by
        simp only [pixelCmds, List.filterMap_cons, hb, if_true]
      rw [hc'] at hc
      rw [blitFrom, if_pos hb]
      cases pre with
      | nil =>
        obtain ⟨rfl, -⟩ := List.cons.inj hc
        simp only [fill_of_never _ h]
        exact ⟨_, rfl, rfl⟩
      | cons c pre =>
        obtain ⟨hc1, hc2⟩ := List.cons.inj hc
        rw [List.length_cons, List.replicate_succ, List.cons_append] at h
        obtain ⟨tr, hr, ht⟩ := ih (s := filled s [c] (List.replicate pre.length .ok ++ .never :: rest)) hc2 rfl
        simp only [fill_of_ok _ h, hc1]
        exact ⟨tr, hr, by rw [ht]; simp [hung, filled, answeredOk]⟩
    · have hc' : pixelCmds s.cfg bm ox oy (p :: ps) = pixelCmds s.cfg bm ox oy ps := by
        simp only [pixelCmds, List.filterMap_cons, if_neg hb]
      rw [hc'] at hc
      rw [blitFrom, if_neg hb]
      exact ih hc h

/-- Everything the blitter's loop can do, for any answers. -/
theorem blitFrom_spec (bm : Bitmap) (ox oy : Coord) (ps : List (Fin 8 × Fin 4)) :
    ∀ {s t : State} {f : FillEnd}, blitFrom bm ox oy ps s = (f, t) →
      SameButFills s t ∧ Issued ps.length s t f := by
  induction ps with
  | nil =>
    intro s t f h
    obtain ⟨rfl, rfl⟩ := Prod.mk.inj h
    exact ⟨SameButFills.refl _, [], by simp, by simp, by simp, rfl⟩
  | cons p ps ih =>
    intro s t f h
    rw [blitFrom] at h
    by_cases hb : testBit bm[p.1] p.2 = true
    · rw [if_pos hb] at h
      simp only at h
      generalize hf : fill (pixelRect s.cfg ox oy p.1 p.2) s = g at h
      obtain ⟨fe, u⟩ := g
      obtain ⟨hs, -, hi⟩ := fill_spec hf
      cases fe with
      | done =>
        obtain ⟨hs', hi'⟩ := ih h
        exact ⟨hs.trans hs', (hi.append hi').mono (by rw [List.length_cons]; omega)⟩
      | failed e =>
        obtain ⟨rfl, rfl⟩ := Prod.mk.inj h
        exact ⟨hs, hi.mono (by rw [List.length_cons]; omega)⟩
      | silent =>
        obtain ⟨rfl, rfl⟩ := Prod.mk.inj h
        exact ⟨⟨hs.1, hs.2, hs.3, hs.4, hs.5, hs.6, hs.7, hs.8, hs.9, hs.10⟩,
          hi.mono (n := (p :: ps).length) (by rw [List.length_cons]; omega)⟩
    · rw [if_neg hb] at h
      obtain ⟨hs', hi'⟩ := ih h
      exact ⟨hs', hi'.mono (by rw [List.length_cons]; omega)⟩

/-- The bitmap of a blit stays latched (R21). -/
theorem blitFrom_bm (bm : Bitmap) (ox oy : Coord) (ps : List (Fin 8 × Fin 4)) :
    ∀ {s t : State} {f : FillEnd}, blitFrom bm ox oy ps s = (f, t) → t.tr.bm = s.tr.bm := by
  induction ps with
  | nil =>
    intro s t f h
    obtain ⟨rfl, rfl⟩ := Prod.mk.inj h
    rfl
  | cons p ps ih =>
    intro s t f h
    rw [blitFrom] at h
    by_cases hb : testBit bm[p.1] p.2 = true
    · rw [if_pos hb] at h
      simp only at h
      generalize hf : fill (pixelRect s.cfg ox oy p.1 p.2) s = g at h
      obtain ⟨fe, u⟩ := g
      obtain ⟨-, htr, -⟩ := fill_spec hf
      cases fe with
      | done => exact (ih h).trans (by rw [htr])
      | failed e => obtain ⟨rfl, rfl⟩ := Prod.mk.inj h; rw [htr]
      | silent => obtain ⟨rfl, rfl⟩ := Prod.mk.inj h; simp [latchPixel, htr]
    · rw [if_neg hb] at h
      exact ih h

/-! ## The rectangle of BC.FILL -/

/-- A corner that is a coordinate is sent as it is (R86). -/
theorem fillRect_of_inWidth {cfg : BlockConfig} {x y : Coord} {w h : Nat} (hx : InWidth cfg x) (hy : InWidth cfg y) :
    fillRect cfg x y w h = ⟨x, y, w, h⟩ := by
  rw [fillRect, narrow_of_inWidth hx, narrow_of_inWidth hy]

end Sys2Proof.Machine
end

