-- ==== Sys2Proof/Laws/Exec.lean ====
section
/-! SUPPORT. Everything an instruction and a step can do, said once: a character that is drawn, fails at a fill or waits for
the surface, and the few shapes every other instruction's effect has. -/

namespace Sys2Proof.Machine

open Sys2Proof.Safety

/-! ## PUTC -/

theorem scan_length : scan.length = 32 := rfl

theorem putc_of_scalar {c : Char21} {s : State} (hc : isScalar c = true) (hw : s.waiting = none) :
    putc c s = .next (render c s) := by
  simp [putc, hc, hw]

/-- What PUTC needs to run (R58, R27). -/
theorem putc_next {c : Char21} {s t : State} (h : putc c s = .next t) :
    isScalar c = true ∧ s.waiting = none ∧ t = render c s := by
  unfold putc at h
  split at h
  · rename_i hc
    split at h
    · cases h
    · rename_i hw
      exact ⟨hc, by simpa using hw, (Host.Outcome.next.inj h).symm⟩
  · cases h

/-- PUTC of a character that is not accepted raises before any effect (R110). -/
theorem render_of_not_accepted {c : Char21} {s : State} (h : ¬ Accepted s.cfg c) :
    render c s = raise (.unsupportedCharacter c) s := by
  simp only [render, lookup_of_not_accepted h]

/-- The state the blitter starts from for an accepted character. -/
def glyphStart (c : Char21) (s : State) : State :=
  beginGlyph c (BitVec.ofNat 10 (cellStart (leadByte c.toNat))) (decide (leadByte c.toNat % 2 = 1))
    (raster s.atlas.read (BitVec.ofNat 10 (cellStart (leadByte c.toNat))) (decide (leadByte c.toNat % 2 = 1))) s

/-- PUTC of an accepted character is its blit and what follows it (R97). -/
theorem render_of_accepted {c : Char21} {s : State} (h : Accepted s.cfg c) :
    render c s = afterFills (fun t => charDone (advance t))
      (blitFrom (raster s.atlas.read (BitVec.ofNat 10 (cellStart (leadByte c.toNat)))
        (decide (leadByte c.toNat % 2 = 1))) s.cx s.cy scan (glyphStart c s)) := by
  simp only [render, lookup_of_accepted h, glyphStart]

/-- The commands of the blit of a rasterised cell are the cell's fills (R82). -/
theorem pixelCmds_raster (cfg : BlockConfig) (m : Memory) {sel : Nat} (hs : sel < 256) (ox oy : Coord) :
    pixelCmds cfg (raster m.read (BitVec.ofNat 10 (cellStart sel)) (decide (sel % 2 = 1))) ox oy scan =
      glyphFills cfg m sel ox oy := by
  rw [pixelCmds_scan, glyphFills, fillsOf, fillsOf]
  apply List.filterMap_congr
  intro p hp
  have hp' := List.mem_range.mp hp
  rw [bitmapOn_raster m hs (by omega) (by omega)]

theorem charDone_advance_filled (s : State) (c : Char21) (cmds : List FillCmd) (rest : List Answer) :
    charDone (advance (filled (glyphStart c s) cmds rest)) = afterPutc s cmds rest := by
  unfold charDone
  have hc : (advance (filled (glyphStart c s) cmds rest)).call = s.call := rfl
  cases hcall : s.call with
  | none =>
    rw [hc, hcall]
    simp [afterPutc, hcall, finish, advance, filled, glyphStart, beginGlyph, advanceX_eq]
  | some str =>
    rw [hc, hcall]
    simp [afterPutc, hcall, advance, filled, glyphStart, beginGlyph, advanceX_eq]

/-- PUTC of an accepted character, all fills answered Ok (R97). -/
theorem render_of_ok {c : Char21} {s : State} {rest : List Answer} (h : Accepted s.cfg c)
    (ha : s.answers =
      List.replicate (glyphFills s.cfg s.atlas (leadByte c.toNat) s.cx s.cy).length .ok ++ rest) :
    render c s = afterPutc s (glyphFills s.cfg s.atlas (leadByte c.toNat) s.cx s.cy) rest := by
  rw [render_of_accepted h]
  have hp := pixelCmds_raster s.cfg s.atlas (leadByte_lt c) s.cx s.cy
  rw [blitFrom_of_ok (s := glyphStart c s) (rest := rest) _ _ _ _ (by
    rw [show (glyphStart c s).cfg = s.cfg from rfl, hp]; exact ha)]
  rw [show (glyphStart c s).cfg = s.cfg from rfl, hp]
  exact charDone_advance_filled s c _ rest

theorem raise_eq_raised (x : Exc) (s : State) : raise x s = raised s x := rfl

/-- PUTC of an accepted character, a fill answered Err (R88, R111). -/
theorem render_of_err {c : Char21} {s : State} {pre post : List FillCmd} {bad : FillCmd} {e : SurfErr}
    {rest : List Answer} (h : Accepted s.cfg c)
    (hf : glyphFills s.cfg s.atlas (leadByte c.toNat) s.cx s.cy = pre ++ bad :: post)
    (ha : s.answers = List.replicate pre.length .ok ++ .err e :: rest) :
    render c s = raised (filledUntil s pre bad e rest) (.surfaceWriteFailure e) := by
  rw [render_of_accepted h]
  have hp := pixelCmds_raster s.cfg s.atlas (leadByte_lt c) s.cx s.cy
  rw [blitFrom_of_err (s := glyphStart c s) (pre := pre) (post := post) (bad := bad) (e := e) (rest := rest) _ _ _ _
    (by rw [show (glyphStart c s).cfg = s.cfg from rfl, hp]; exact hf) ha]
  rfl

/-- PUTC of an accepted character, a fill never answered (R135). -/
theorem render_of_never {c : Char21} {s : State} {pre post : List FillCmd} {bad : FillCmd} {rest : List Answer}
    (h : Accepted s.cfg c) (hf : glyphFills s.cfg s.atlas (leadByte c.toNat) s.cx s.cy = pre ++ bad :: post)
    (ha : s.answers = List.replicate pre.length .ok ++ .never :: rest) :
    ∃ tr, tr.rect = some bad.rect ∧ render c s = { hung s pre bad rest with tr := tr } := by
  rw [render_of_accepted h]
  have hp := pixelCmds_raster s.cfg s.atlas (leadByte_lt c) s.cx s.cy
  obtain ⟨tr, hr, ht⟩ := blitFrom_of_never (s := glyphStart c s) (pre := pre) (post := post) (bad := bad) (rest := rest)
    _ _ _ _ (by rw [show (glyphStart c s).cfg = s.cfg from rfl, hp]; exact hf) ha
  exact ⟨tr, hr, by rw [ht]; rfl⟩

/-! ## Every instruction -/

/-- The shapes an instruction's effect can have. -/
inductive Effect (i : Instr) (s : State) : State → Prop where
  /-- Only transient values change. -/
  | latch (tr : Transient) (hp : isPutc i = false) : Effect i s { s with tr := tr }
  /-- An exception is raised before any other effect (R110). -/
  | exception (x : Exc) : Effect i s (raise x s)
  /-- Fills are issued from a state that differs in transient values, all were answered Ok, and a PUTC then advances. -/
  | filled (t : State) (hw : s.waiting = none) (hs : SameButFills s t) (hi : Issued 32 s t .done) :
      Effect i s (if isPutc i then charDone (advance t) else t)
  /-- Fills are issued and one of them fails (R88). -/
  | failed (t : State) (e : SurfErr) (hw : s.waiting = none) (hs : SameButFills s t) (hi : Issued 32 s t (.failed e)) :
      Effect i s (raise (.surfaceWriteFailure e) t)
  /-- Fills are issued and one of them is never answered (R135). -/
  | silent (t : State) (hw : s.waiting = none) (hs : SameButFills s t) (hi : Issued 32 s t .silent) : Effect i s t
  /-- INIT (R95). -/
  | init (x0 y0 : Coord) (hi : i = .init x0 y0) (hb : s.busy = false) :
      Effect i s { s with initialised := true, cx := narrow s.cfg.coordW x0, cy := narrow s.cfg.coordW y0,
                          replies := s.replies ++ [.nothing] }
  /-- DRAW (R98). -/
  | draw (str : List Char21) (hi : i = .draw str) (hb : s.busy = false) (hs : str.all isScalar = true) :
      Effect i s { s with call := some str, pc := 0, tr := Transient.empty }
  /-- GETPOS (R100). -/
  | getpos (hi : i = .getpos) (hb : s.busy = false) : Effect i s { s with replies := s.replies ++ [.pos s.cx s.cy] }
  /-- CA.ADVANCE (R96). -/
  | advance (hi : i = .caAdvance) (hw : s.waiting = none) : Effect i s (advance s)

/-- The fills of an operation and what follows them, as an effect. -/
theorem Effect.of_fills {i : Instr} {s s' t : State} {f : FillEnd} {next : State → State} (hw : s.waiting = none)
    (h : SameButFills s' t) (hi : Issued 32 s' t f)
    (h0 : SameButFills s s') (htr : s'.trace = s.trace) (hw0 : s'.waiting = s.waiting)
    (hn : ∀ u, next u = if isPutc i then charDone (Machine.advance u) else u) :
    Effect i s (afterFills next (f, t)) := by
  have hs := h0.trans h
  cases f with
  | done =>
    obtain ⟨new, h1, h2, h3, h4⟩ := hi
    rw [afterFills, hn]
    exact .filled t hw hs ⟨new, by rw [h1, htr], h2, h3, h4.trans hw0⟩
  | failed e =>
    obtain ⟨new, cmd, h1, h2, h3, h4⟩ := hi
    exact .failed t e hw hs ⟨new, cmd, by rw [h1, htr], h2, h3, h4.trans hw0⟩
  | silent =>
    obtain ⟨new, cmd, h1, h2, h3, h4⟩ := hi
    exact .silent t hw hs ⟨new, cmd, by rw [h1, htr], h2, h3, h4⟩

theorem putc_effect {i : Instr} (hp : isPutc i = true) {c : Char21} {s t : State} (h : putc c s = .next t) :
    Effect i s t := by
  obtain ⟨-, hw, rfl⟩ := putc_next h
  by_cases ha : Accepted s.cfg c
  · rw [render_of_accepted ha]
    generalize hb : blitFrom _ s.cx s.cy scan (glyphStart c s) = g
    obtain ⟨f, u⟩ := g
    obtain ⟨hs, hi⟩ := blitFrom_spec _ _ _ _ hb
    exact Effect.of_fills hw hs hi (SameButFills.latch s _) rfl rfl (by simp [hp])
  · rw [render_of_not_accepted ha]
    exact .exception _

/-- Everything an instruction that answers a next state can do. -/
theorem exec_effect {i : Instr} {s t : State} (h : exec i s = .next t) : Effect i s t := by
  cases i with
  | putcU1 u l => exact putc_effect rfl h
  | putcU2 top low => exact putc_effect rfl h
  | putcU3 top low => exact putc_effect rfl h
  | putcU4Low top low => exact putc_effect rfl h
  | putcU4High low => exact putc_effect rfl h
  | illegalSurrogate low => cases h
  | illegalAbove word => cases h
  | giSplit sel => cases h; exact Effect.latch _ rfl
  | grAddr off j => cases h; exact Effect.latch _ rfl
  | grNib b par => cases h; exact Effect.latch _ rfl
  | bcTest n j => cases h; exact Effect.latch _ rfl
  | giIndex upper lower => cases h; exact Effect.latch _ rfl
  | giPar lower => cases h; exact Effect.latch _ rfl
  | bcRect ox oy j k => cases h; exact Effect.latch _ rfl
  | init x0 y0 =>
    simp only [exec, execInit] at h
    split at h
    · cases h
    · rename_i hb; cases h; exact .init x0 y0 rfl (by simpa using hb)
  | draw str =>
    simp only [exec, execDraw] at h
    split at h
    · cases h
    · rename_i hb
      split at h
      · rename_i hs; cases h; exact .draw str rfl (by simpa using hb) hs
      · cases h
  | getpos =>
    simp only [exec, execGetpos] at h
    split at h
    · cases h
    · rename_i hb; cases h; exact .getpos rfl (by simpa using hb)
  | giSel c =>
    simp only [exec, execGiSel] at h
    split at h
    · cases h; exact Effect.latch _ rfl
    · cases h
  | giDomain c =>
    simp only [exec, execGiDomain] at h
    split at h
    · split at h
      · cases h; exact Effect.latch _ rfl
      · cases h; exact .exception _
    · cases h
  | giBounds off =>
    simp only [exec, execGiBounds] at h
    split at h
    · cases h; exact Effect.latch _ rfl
    · cases h; exact .exception _
  | giLookup c =>
    simp only [exec, execGiLookup] at h
    split at h
    · split at h
      · cases h; exact .exception _
      · cases h; exact Effect.latch _ rfl
    · cases h
  | grLoad a =>
    simp only [exec, execGrLoad] at h
    split at h
    · cases h; exact Effect.latch _ rfl
    · cases h
  | grRaster off par =>
    simp only [exec, execGrRaster] at h
    split at h
    · cases h; exact Effect.latch _ rfl
    · cases h
  | bcFill x y w k =>
    simp only [exec, execBcFill] at h
    split at h
    · cases h
    · rename_i hw
      cases h
      generalize hf : fill _ _ = g
      obtain ⟨f, u⟩ := g
      obtain ⟨hs, -, hi⟩ := fill_spec hf
      exact Effect.of_fills (by simpa using hw) hs (hi.mono (by omega)) (SameButFills.latch s _) rfl rfl
        (fun _ => rfl)
  | bcBlit bm ox oy =>
    simp only [exec, execBcBlit] at h
    split at h
    · cases h
    · rename_i hw
      cases h
      generalize hf : blitFrom bm ox oy scan _ = g
      obtain ⟨f, u⟩ := g
      obtain ⟨hs, hi⟩ := blitFrom_spec _ _ _ _ hf
      exact Effect.of_fills (by simpa using hw) hs hi (SameButFills.latch s _) rfl rfl (fun _ => rfl)
  | caAdvance =>
    simp only [exec, execCaAdvance] at h
    split at h
    · cases h
    · rename_i hw; cases h; exact .advance rfl (by simpa using hw)

/-! ## A step -/

/-- What a step that answers a next state did: an instruction of the DRAW in progress, the return of Ok at its end, an
operation invoked directly, the host's next operation, or nothing. -/
theorem step_cases {s t : State} (h : step s = .next t) :
    s.waiting = none ∧
    ((∃ str w, s.call = some str ∧ str[s.pc]? = some w ∧ exec (decodeChar w) s = .next t) ∨
     (∃ str, s.call = some str ∧ str[s.pc]? = none ∧ t = finish .ok s) ∨
     (∃ i, s.call = none ∧ s.direct = some i ∧ exec i.val { s with direct := none } = .next t) ∨
     (∃ r rest, s.call = none ∧ s.direct = none ∧ s.requests = r :: rest ∧
        exec r.instr { s with requests := rest } = .next t) ∨
     (s.call = none ∧ s.direct = none ∧ s.requests = [] ∧ t = s)) := by
  unfold step at h
  split at h
  · cases h
  · rename_i hw
    refine ⟨hw, ?_⟩
    split at h
    · rename_i str hc
      unfold currentChar at h
      split at h
      · rename_i w hg; exact .inl ⟨str, w, hc, hg, h⟩
      · rename_i hg; cases h; exact .inr (.inl ⟨str, hc, hg, rfl⟩)
    · rename_i hc
      split at h
      · rename_i i hd; exact .inr (.inr (.inl ⟨i, hc, hd, h⟩))
      · rename_i hd
        split at h
        · rename_i hr; cases h; exact .inr (.inr (.inr (.inr ⟨hc, hd, hr, rfl⟩)))
        · rename_i r rest hr; exact .inr (.inr (.inr (.inl ⟨r, rest, hc, hd, hr, h⟩)))

/-! ## The invariant's two conditions, spelt out -/

theorem callWf_iff (s : State) : callWf s = true ↔
    (∀ str, s.call = some str → s.pc ≤ str.length ∧ str.all isScalar = true) ∧
      (s.call = none → s.pc = 0) := by
  unfold callWf
  cases s.call <;> simp

theorem waitingWf_iff (s : State) : waitingWf s = true ↔
    (∀ cmd, s.waiting = some cmd → s.trace.getLast? = some { cmd := cmd, answer := .never } ∧
        ∀ r ∈ s.trace.dropLast, r.answer ≠ .never) ∧
      (s.waiting = none → ∀ r ∈ s.trace, r.answer ≠ .never) := by
  unfold waitingWf
  cases s.waiting <;> simp

/-! ## Runs -/

@[simp] theorem run_zero (s : State) : run 0 s = .next s := rfl

theorem run_succ {s t : State} (n : Nat) (h : step s = .next t) : run (n + 1) s = run n t := by
  have h' : Sys2Proof.core.step s = .next t := h
  simp only [run, Host.Core.run, h']
  rfl

theorem run_succ_fault {s : State} (n : Nat) {r : Fault} (h : step s = .fault r) : run (n + 1) s = .fault r := by
  have h' : Sys2Proof.core.step s = .fault r := h
  simp only [run, Host.Core.run, h']
  rfl

theorem run_succ_refused {s : State} (n : Nat) {r : Refusal} (h : step s = .refused r) :
    run (n + 1) s = .refused r := by
  have h' : Sys2Proof.core.step s = .refused r := h
  simp only [run, Host.Core.run, h']
  rfl

/-- Runs of `m` and then `n` steps are one run. -/
theorem run_add {s t : State} (m n : Nat) (h : run m s = .next t) : run (m + n) s = run n t := by
  induction m generalizing s with
  | zero => cases h; rw [Nat.zero_add]
  | succ m ih =>
    rw [Nat.add_right_comm]
    cases hs : step s with
    | next u =>
      rw [run_succ _ hs] at h ⊢
      exact ih h
    | fault r => rw [run_succ_fault _ hs] at h; cases h
    | refused r => rw [run_succ_refused _ hs] at h; cases h

/-- The step of a DRAW at an accepted character whose fills are all answered Ok (R97, R98). -/
theorem step_of_ok {s : State} {str : List Char21} {c : Char21} {rest : List Answer} (hw : s.waiting = none)
    (hc : s.call = some str) (hg : str[s.pc]? = some c) (hs : isScalar c = true)
    (hA : Accepted s.cfg c)
    (ha : s.answers =
      List.replicate (glyphFills s.cfg s.atlas (leadByte c.toNat) s.cx s.cy).length .ok ++ rest) :
    step s = .next (afterPutc s (glyphFills s.cfg s.atlas (leadByte c.toNat) s.cx s.cy) rest) := by
  have h : step s = exec (decodeChar c) s := by simp only [step, hw, hc, currentChar, hg]
  rw [h, exec_decodeChar hs, putc_of_scalar hs hw, render_of_ok hA ha]

/-- A stretch of accepted characters of a DRAW in progress whose fills are all answered Ok (R98, R103). -/
theorem run_of_ok {str : List Char21} (n : Nat) (todo : List Char21) :
    ∀ {s : State} {rest : List Answer}, s.waiting = none → s.call = some str → s.tr = Transient.empty →
      (∃ tail, str.drop s.pc = todo ++ tail) →
      InWidth s.cfg s.cx → (∀ c ∈ todo, isScalar c = true ∧ Accepted s.cfg c) →
      s.answers = List.replicate (textFills s.cfg s.atlas todo s.cx s.cy).length .ok ++ rest →
      run (todo.length + n) s = run n { filled s (textFills s.cfg s.atlas todo s.cx s.cy) rest with
        cx := moved s.cfg s.cx (todo.length * (4 * s.cfg.scale)), pc := s.pc + todo.length } := by
  induction todo with
  | nil =>
    intro s rest _ _ _ _ hx _ ha
    have h : rest = s.answers := by simpa [textFills] using ha.symm
    subst h
    simp [textFills, filled, answeredOk, moved_zero hx]
  | cons c todo ih =>
    intro s rest hw hc ht ⟨tail, hd⟩ hcx hA ha
    obtain ⟨hs1, hA1⟩ := hA c (by simp)
    have hg : str[s.pc]? = some c := by
      have h := congrArg List.head? hd
      simpa [List.head?_drop] using h
    rw [textFills, List.length_append, List.replicate_add, List.append_assoc] at ha
    have h1 := step_of_ok hw hc hg hs1 hA1 ha
    have hx : moved s.cfg (moved s.cfg s.cx (4 * s.cfg.scale)) (todo.length * (4 * s.cfg.scale)) =
        moved s.cfg s.cx ((todo.length + 1) * (4 * s.cfg.scale)) := by
      rw [moved_moved, Nat.add_mul, Nat.one_mul, Nat.add_comm]
    rw [List.length_cons, Nat.add_right_comm, run_succ _ h1, ih (rest := rest)]
    · congr 1
      simp only [filled, afterPutc, textFills, hc, ht, answeredOk, Option.isSome_some, if_true, List.map_append,
        List.append_assoc, hx, Nat.add_assoc, Nat.add_comm 1]
    · exact hw
    · exact hc
    · rfl
    · refine ⟨tail, ?_⟩
      have h := congrArg List.tail hd
      simpa [afterPutc, hc] using h
    · exact moved_inWidth _ _ _
    · intro d hd'
      exact hA d (by simp [hd'])
    · rfl

end Sys2Proof.Machine
end

