-- ==== Sys2Proof/Laws/Memory.lean ====
section
/-! SUPPORT. The atlas as a list of cells: a read after a write, and the canonical form every write keeps (R32). -/

namespace Sys2Proof.Machine

@[simp] theorem read_nil (a : Nat) : Memory.read [] a = Config.fontByte a := rfl

theorem read_cons (k : Nat) (b : Byte) (rest : Memory) (a : Nat) :
    Memory.read ((k, b) :: rest) a = if k = a then b else Memory.read rest a := rfl

/-- Below its first address a canonical list reads as if nothing were listed. -/
theorem read_of_wfFrom {lo : Nat} {m : Memory} (h : Memory.wfFrom lo m = true) {a : Nat} (ha : a < lo) :
    Memory.read m a = Config.fontByte a := by
  induction m generalizing lo with
  | nil => rfl
  | cons c rest ih =>
    obtain ⟨k, b⟩ := c
    simp only [Memory.wfFrom, Bool.and_eq_true, decide_eq_true_eq] at h
    rw [read_cons, if_neg (by omega)]
    exact ih h.2 (by omega)

/-- A lower bound may be lowered. -/
theorem wfFrom_mono {lo lo' : Nat} {m : Memory} (h : Memory.wfFrom lo m = true) (hl : lo' ≤ lo) :
    Memory.wfFrom lo' m = true := by
  cases m with
  | nil => rfl
  | cons c rest =>
    obtain ⟨k, b⟩ := c
    simp only [Memory.wfFrom, Bool.and_eq_true, decide_eq_true_eq] at h ⊢
    exact ⟨⟨⟨by omega, h.1.1.2⟩, h.1.2⟩, h.2⟩

/-- A read after a write to the same address of a canonical list gives the byte written. -/
theorem read_write_same {lo : Nat} {m : Memory} (h : Memory.wfFrom lo m = true) (a : Nat) (v : Byte) :
    (Memory.write m a v).read a = v := by
  induction m generalizing lo with
  | nil => unfold Memory.write; split <;> simp_all [read_cons]
  | cons c rest ih =>
    obtain ⟨k, b⟩ := c
    have h' := h
    simp only [Memory.wfFrom, Bool.and_eq_true, decide_eq_true_eq] at h
    unfold Memory.write
    by_cases hk : a < k
    · rw [if_pos hk]
      split
      · rename_i hv
        rw [hv]
        exact read_of_wfFrom (lo := k) (by simp_all [Memory.wfFrom]) hk
      · simp [read_cons]
    · rw [if_neg hk]
      by_cases he : a = k
      · subst he
        rw [if_pos rfl]
        split
        · rename_i hv
          rw [hv]
          exact read_of_wfFrom h.2 (by omega)
        · simp [read_cons]
      · rw [if_neg he, read_cons, if_neg (by omega)]
        exact ih h.2

/-- A write leaves every other address alone. -/
theorem read_write_other (m : Memory) {a a' : Nat} (v : Byte) (hne : a' ≠ a) :
    (Memory.write m a v).read a' = m.read a' := by
  induction m with
  | nil => unfold Memory.write; split <;> simp [read_cons, Ne.symm hne]
  | cons c rest ih =>
    obtain ⟨k, b⟩ := c
    unfold Memory.write
    split
    · split <;> simp [read_cons, Ne.symm hne]
    · split
      · rename_i hk
        subst hk
        split <;> simp [read_cons, Ne.symm hne]
      · simp [read_cons, ih]

theorem wfFrom_write {lo : Nat} {m : Memory} (h : Memory.wfFrom lo m = true) {a : Nat} (v : Byte)
    (hlo : lo ≤ a) (ha : a < 1024) : Memory.wfFrom lo (Memory.write m a v) = true := by
  induction m generalizing lo with
  | nil => unfold Memory.write; split <;> simp_all [Memory.wfFrom]
  | cons c rest ih =>
    obtain ⟨k, b⟩ := c
    have h' := h
    simp only [Memory.wfFrom, Bool.and_eq_true, decide_eq_true_eq] at h
    unfold Memory.write
    by_cases hk : a < k
    · rw [if_pos hk]
      split
      · exact h'
      · simp_all [Memory.wfFrom]
    · rw [if_neg hk]
      by_cases he : a = k
      · subst he
        rw [if_pos rfl]
        split
        · exact wfFrom_mono h.2 (by omega)
        · simp_all [Memory.wfFrom]
      · rw [if_neg he]
        simp only [Memory.wfFrom, Bool.and_eq_true, decide_eq_true_eq]
        exact ⟨⟨⟨by omega, h.1.1.2⟩, h.1.2⟩, ih h.2 (by omega)⟩

/-- Every write inside the address space keeps the canonical form. -/
theorem write_keeps_wf {m : Memory} (h : m.wf = true) {a : Nat} (v : Byte) (ha : a < 1024) :
    (Memory.write m a v).wf = true := wfFrom_write h v (Nat.zero_le a) ha

/-- The atlas at reset is in canonical form. -/
theorem reset_atlas_wf : State.reset.atlas.wf = true := rfl

end Sys2Proof.Machine
end

