-- ==== Sys2Proof/Laws/PerInstr.lean ====
section
/-! SUPPORT. The family RowMatch: the word of an instruction fits its format, and for the seven CHAR21 rows it meets the
mask and match of the row in section 6 of `spec/30_encoding.md` and lies in its range. One lemma for each constructor. -/

namespace Sys2Proof.Laws

open Sys2Proof.Machine

/-- A word is selected by a row (mask, match) of the table. -/
abbrev selects (mask value : Char21) (w : Nat) : Prop := BitVec.ofNat 21 w &&& mask = value

/-- What the table says of the instruction's row: mask, match and range for a CHAR21 row, nothing for the others. -/
def rowSays (i : Instr) (w : Nat) : Prop :=
  match i with
  | .putcU1 _ _ => selects 0x1FFF80 0x000000 w ∧ w ≤ 0x7F
  | .putcU2 _ _ => selects 0x1FF800 0x000000 w ∧ 0x80 ≤ w ∧ w ≤ 0x7FF
  | .illegalSurrogate _ => selects 0x1FF800 0x00D800 w ∧ 0xD800 ≤ w ∧ w ≤ 0xDFFF
  | .putcU3 _ _ => selects 0x1F0000 0x000000 w ∧ 0x800 ≤ w ∧ w ≤ 0xFFFF ∧ ¬ (0xD800 ≤ w ∧ w ≤ 0xDFFF)
  | .putcU4Low _ _ => selects 0x100000 0x000000 w ∧ 0x10000 ≤ w ∧ w ≤ 0xFFFFF
  | .putcU4High _ => selects 0x1F0000 0x100000 w ∧ 0x100000 ≤ w ∧ w ≤ 0x10FFFF
  | .illegalAbove _ => 0x110000 ≤ w
  | .giSplit _ | .grAddr _ _ | .grNib _ _ | .bcTest _ _ | .init _ _ | .draw _ | .getpos | .giSel _ | .giDomain _
  | .giIndex _ _ | .giPar _ | .giBounds _ | .giLookup _ | .grLoad _ | .grRaster _ _ | .bcRect _ _ _ _
  | .bcFill _ _ _ _ | .bcBlit _ _ _ | .caAdvance => True

/-- The statement of the family. -/
def RowMatch.Statement (i : Instr) : Prop :=
  i.wellFormed = true → ∀ f w, encode i = some (f, w) → w < 2 ^ f.width ∧ rowSays i w

/-- The word of a character is the character. -/
theorem selects_iff (mask value c : Char21) : selects mask value c.toNat ↔ c &&& mask = value := by
  rw [selects, BitVec.ofNat_toNat, BitVec.setWidth_eq]

/-- A CHAR21 instruction: its word is a character, which fits 21 bits. -/
theorem RowMatch.of_char {i : Instr} {c : Char21} (he : encode i = some (.char21, c.toNat))
    (h : i.wellFormed = true → rowSays i c.toNat) : RowMatch.Statement i := by
  intro hwf f w hfw
  rw [he] at hfw
  obtain ⟨rfl, rfl⟩ := Prod.mk.inj (Option.some.inj hfw)
  exact ⟨c.isLt, h hwf⟩

/-- An instruction without an encoding. -/
theorem RowMatch.of_none {i : Instr} (he : encode i = none) : RowMatch.Statement i := by
  intro _ f w hfw
  rw [he] at hfw
  cases hfw

theorem RowMatch.putcU1 (u : BitVec 3) (l : Nib) : RowMatch.Statement (.putcU1 u l) :=
  RowMatch.of_char rfl fun _ => by
    have := u.isLt; have := l.isLt; have := charU1_toNat u l
    exact ⟨(selects_iff _ _ _).mpr ((row1_iff _).mpr (by omega)), by omega⟩
theorem RowMatch.putcU2 (top : BitVec 5) (low : BitVec 6) : RowMatch.Statement (.putcU2 top low) :=
  RowMatch.of_char rfl fun h => by
    simp only [Instr.wellFormed, decide_eq_true_eq] at h
    have := top.isLt; have := low.isLt; have := charU2_toNat top low
    exact ⟨(selects_iff _ _ _).mpr ((row2_iff _).mpr (by omega)), by omega, by omega⟩
theorem RowMatch.illegalSurrogate (low : BitVec 11) : RowMatch.Statement (.illegalSurrogate low) :=
  RowMatch.of_char rfl fun _ => by
    have := low.isLt; have := charSurrogate_toNat low
    exact ⟨(selects_iff _ _ _).mpr ((row3_iff _).mpr (by omega)), by omega, by omega⟩
theorem RowMatch.putcU3 (top : BitVec 4) (low : BitVec 12) : RowMatch.Statement (.putcU3 top low) :=
  RowMatch.of_char rfl fun h => by
    simp only [Instr.wellFormed, Bool.and_eq_true, Bool.or_eq_true, decide_eq_true_eq] at h
    have := top.isLt; have := low.isLt; have := charU3_toNat top low
    exact ⟨(selects_iff _ _ _).mpr ((row4_iff _).mpr (by omega)), by omega, by omega, by omega⟩
theorem RowMatch.putcU4Low (top : BitVec 2) (low : BitVec 18) : RowMatch.Statement (.putcU4Low top low) :=
  RowMatch.of_char rfl fun h => by
    simp only [Instr.wellFormed, Bool.or_eq_true, decide_eq_true_eq] at h
    have := top.isLt; have := low.isLt; have := charU4Low_toNat top low
    exact ⟨(selects_iff _ _ _).mpr ((row5_iff _).mpr (by omega)), by omega, by omega⟩
theorem RowMatch.putcU4High (low : BitVec 16) : RowMatch.Statement (.putcU4High low) :=
  RowMatch.of_char rfl fun _ => by
    have := low.isLt; have := charU4High_toNat low
    exact ⟨(selects_iff _ _ _).mpr ((row6_iff _).mpr (by omega)), by omega, by omega⟩
theorem RowMatch.illegalAbove (word : Char21) : RowMatch.Statement (.illegalAbove word) :=
  RowMatch.of_char rfl fun h => by
    show 0x110000 ≤ word.toNat
    simpa [Instr.wellFormed] using h
theorem RowMatch.giSplit (sel : Byte) : RowMatch.Statement (.giSplit sel) := by
  intro _ f w h; cases h; exact ⟨sel.isLt, trivial⟩
theorem RowMatch.grAddr (off : Offset) (i : Fin 8) : RowMatch.Statement (.grAddr off i) := by
  intro _ f w h; cases h; exact ⟨(off + BitVec.ofNat 10 (8 * i.val)).isLt, trivial⟩
theorem RowMatch.grNib (b : Byte) (par : Bool) : RowMatch.Statement (.grNib b par) := by
  intro _ f w h; cases h; exact ⟨b.isLt, trivial⟩
theorem RowMatch.bcTest (n : Nib) (j : Fin 4) : RowMatch.Statement (.bcTest n j) := by
  intro _ f w h; cases h; exact ⟨n.isLt, trivial⟩
theorem RowMatch.init (x0 y0 : Coord) : RowMatch.Statement (.init x0 y0) := RowMatch.of_none rfl
theorem RowMatch.draw (str : List Char21) : RowMatch.Statement (.draw str) := RowMatch.of_none rfl
theorem RowMatch.getpos : RowMatch.Statement .getpos := RowMatch.of_none rfl
theorem RowMatch.giSel (c : Char21) : RowMatch.Statement (.giSel c) := RowMatch.of_none rfl
theorem RowMatch.giDomain (c : Char21) : RowMatch.Statement (.giDomain c) := RowMatch.of_none rfl
theorem RowMatch.giIndex (upper lower : Nib) : RowMatch.Statement (.giIndex upper lower) := RowMatch.of_none rfl
theorem RowMatch.giPar (lower : Nib) : RowMatch.Statement (.giPar lower) := RowMatch.of_none rfl
theorem RowMatch.giBounds (off : Offset) : RowMatch.Statement (.giBounds off) := RowMatch.of_none rfl
theorem RowMatch.giLookup (c : Char21) : RowMatch.Statement (.giLookup c) := RowMatch.of_none rfl
theorem RowMatch.grLoad (a : Offset) : RowMatch.Statement (.grLoad a) := RowMatch.of_none rfl
theorem RowMatch.grRaster (off : Offset) (par : Bool) : RowMatch.Statement (.grRaster off par) := RowMatch.of_none rfl
theorem RowMatch.bcRect (ox oy : Coord) (i : Fin 8) (j : Fin 4) : RowMatch.Statement (.bcRect ox oy i j) := RowMatch.of_none rfl
theorem RowMatch.bcFill (x y : Coord) (w h : Nat) : RowMatch.Statement (.bcFill x y w h) := RowMatch.of_none rfl
theorem RowMatch.bcBlit (bm : Bitmap) (ox oy : Coord) : RowMatch.Statement (.bcBlit bm ox oy) := RowMatch.of_none rfl
theorem RowMatch.caAdvance : RowMatch.Statement .caAdvance := RowMatch.of_none rfl

end Sys2Proof.Laws
end

