-- ==== Sys2Proof/Tests/Slice0.lean ====
section
/-! SUPPORT. Tests: the well-formedness checks, the decoder on words written out from `spec/30_encoding.md`, single steps
against the vectors of `spec/95_test_vectors.md` (named beside each), and one witness for every statement that has
hypotheses. Expected values come from the spec's vectors or from hand arithmetic on its rules. -/

namespace Sys2Proof.Tests

open Sys2Proof.Machine Sys2Proof.Safety

/-! ## Helpers -/

/-- The bytes T(a) = (37*a + 11) mod 256 of the cell whose row 0 is at `off` (the test atlas T of `95_test_vectors.md`). -/
def cellT (off : Nat) : Memory :=
  [0, 8, 16, 24, 32, 40, 48, 56].map fun d => (off + d, BitVec.ofNat 8 (37 * (off + d) + 11))

/-- The cell at `off` with row 0 equal to `b` and every other row zero (the atlas P4 has `b` = 0xF0 at 0). -/
def cellP (off : Nat) (b : Byte) : Memory :=
  (off, b) :: [8, 16, 24, 32, 40, 48, 56].map fun d => (off + d, 0#8)

/-- An idle block with its cursor at (x, y), a given policy and atlas, and a surface that answers `n` fills Ok. -/
def idle (x y : Coord) (p : DomainPolicy) (m : Memory) (n : Nat) : State :=
  { State.reset with
    cfg := { coordW := 32, colorW := 16, scale := 2, fg := 0x1234, policy := p, atlasLen := 1024,
             scaleLegal := by decide, fgFits := by decide },
    atlas := m,
    initialised := true, cx := x, cy := y, answers := List.replicate n .ok }

/-- The idle block most tests start from. -/
abbrev s0 : State := idle 0 0 .reject [] 0

/-- The configuration of the tests at COORD_W = 16. -/
def narrowCfg : BlockConfig := { s0.cfg with coordW := 16, scaleLegal := by decide }

/-- The same block inside a DRAW of a string, at its first character. -/
def drawing (str : List Char21) (s : State) : State := { s with call := some str, pc := 0 }

/-- A view of the next state, and none if there is none. -/
def got {α : Type} (f : State → α) : Outcome → Option α
  | .next t => some (f t)
  | .fault _ => none
  | .refused _ => none

/-- The outcome is this refusal. -/
def refusedWith (r : Refusal) : Outcome → Bool
  | .refused q => decide (q = r)
  | .next _ => false
  | .fault _ => false

/-- The corners of the fills issued, in order. -/
def corners (s : State) : List (Int × Int) := s.trace.map fun r => (r.cmd.rect.x, r.cmd.rect.y)

/-- The cursor. -/
def cursor (s : State) : Int × Int := (s.cx, s.cy)

/-! ## Well-formedness: an ill-formed term for each check -/

theorem test_wf_u2_below_its_range : (Instr.putcU2 1 0).wellFormed = false := by decide
theorem test_wf_u3_below_its_range : (Instr.putcU3 0 0x7FF).wellFormed = false := by decide
theorem test_wf_u3_surrogate : (Instr.putcU3 0xD 0x800).wellFormed = false := by decide
theorem test_wf_u4Low_below_its_range : (Instr.putcU4Low 0 0xFFFF).wellFormed = false := by decide
theorem test_wf_above_below_its_range : (Instr.illegalAbove 0x10FFFF).wellFormed = false := by decide
theorem test_wf_addr_offset : (Instr.grAddr 8 0).wellFormed = false := by decide
theorem test_wf_bounds_offset : (Instr.giBounds 0x38).wellFormed = false := by decide
theorem test_wf_raster_offset : (Instr.grRaster 0x10 false).wellFormed = false := by decide
theorem test_wf_draw_surrogate : (Instr.draw [0x41, 0xD800]).wellFormed = false := by decide
theorem test_wf_sel_not_scalar : (Instr.giSel 0xDFFF).wellFormed = false := by decide
theorem test_wf_domain_not_scalar : (Instr.giDomain 0x110000).wellFormed = false := by decide
theorem test_wf_lookup_not_scalar : (Instr.giLookup 0x1FFFFF).wellFormed = false := by decide
theorem test_wf_fill_no_width : (Instr.bcFill 0 0 0 1).wellFormed = false := by decide
theorem test_wf_fill_no_height : (Instr.bcFill 0 0 1 0).wellFormed = false := by decide
/-- The same operands inside their ranges pass. -/
theorem test_wf_accepts : (Instr.putcU2 2 0).wellFormed = true ∧ (Instr.putcU3 0 0x800).wellFormed = true ∧
    (Instr.putcU3 0xD 0x7FF).wellFormed = true ∧ (Instr.putcU4Low 0 0x10000).wellFormed = true ∧
    (Instr.illegalAbove 0x110000).wellFormed = true ∧ (Instr.grAddr 967 7).wellFormed = true ∧
    (Instr.draw [0x41, 0x10FFFF]).wellFormed = true ∧ (Instr.bcFill 0 0 1 1).wellFormed = true := by decide

/-! ## Decoding: words written out from the rows of section 6 and the formats of sections 2 to 5 -/

/-- 'A' = U+0041: fourteen zeros, u = 100, l = 0001 (P1). -/
theorem test_decode_putcU1 : decode .char21 0b00000000000000_100_0001 = .ok (.putcU1 4 1) := by decide
/-- U+00E9: ten zeros, s = 00011, x = 101001 (P3: sel = 0xC3). -/
theorem test_decode_putcU2 : decode .char21 0b0000000000_00011_101001 = .ok (.putcU2 3 0x29) := by decide
/-- U+D800: 0000011011 and eleven zeros. -/
theorem test_decode_surrogate : decode .char21 0b0000011011_00000000000 = .ok (.illegalSurrogate 0) := by decide
/-- U+3042: five zeros, s = 0011, x = 000001000010. -/
theorem test_decode_putcU3 : decode .char21 0b00000_0011_000001000010 = .ok (.putcU3 3 0x42) := by decide
/-- U+1F600: a zero, s = 00, x = 011111011000000000. -/
theorem test_decode_putcU4Low : decode .char21 0b0_00_011111011000000000 = .ok (.putcU4Low 0 0x1F600) := by decide
/-- U+10FFFF: 10000 and sixteen ones. -/
theorem test_decode_putcU4High : decode .char21 0b10000_1111111111111111 = .ok (.putcU4High 0xFFFF) := by decide
/-- The word 0x110000, the first above the scalar values. -/
theorem test_decode_above : decode .char21 0b100010000000000000000 = .ok (.illegalAbove 0x110000) := by decide
/-- A selector byte 0x41. -/
theorem test_decode_split : decode .sel8 0b0100_0001 = .ok (.giSplit 0x41) := by decide
/-- Address 280 = row 3 of the cell at 256: upper 0100, row 011, byte column 000 (V-GR-1). -/
theorem test_decode_addr : decode .off10 0b0100_011_000 = .ok (.grAddr 256 3) := by decide
/-- An atlas byte 0x5A. -/
theorem test_decode_nib : decode (.atlas8 false) 0b0101_1010 = .ok (.grNib 0x5A false) := by decide
/-- A nibble 1000. -/
theorem test_decode_test : decode (.nib4 3) 0b1000 = .ok (.bcTest 8 3) := by decide
/-- A number above the format's width is rejected by name. -/
theorem test_decode_too_wide : decode .off10 0b1_0000_000_000 = .error .tooWide := by decide
/-- The abstract rows have no encoding (R62). -/
theorem test_encode_none : encode .getpos = none ∧ encode (.draw [0x41]) = none := by decide
/-- The words where two ranges of the table meet (column "range" of section 6). -/
theorem test_decode_boundaries :
    decodeChar 0x7F = .putcU1 7 15 ∧ decodeChar 0x80 = .putcU2 2 0 ∧ decodeChar 0x7FF = .putcU2 31 63 ∧
    decodeChar 0x800 = .putcU3 0 0x800 ∧ decodeChar 0xD7FF = .putcU3 0xD 0x7FF ∧
    decodeChar 0xDFFF = .illegalSurrogate 0x7FF ∧ decodeChar 0xE000 = .putcU3 0xE 0 ∧
    decodeChar 0xFFFF = .putcU3 0xF 0xFFF ∧ decodeChar 0x10000 = .putcU4Low 0 0x10000 ∧
    decodeChar 0xFFFFF = .putcU4Low 3 0x3FFFF ∧ decodeChar 0x100000 = .putcU4High 0 ∧
    decodeChar 0x1FFFFF = .illegalAbove 0x1FFFFF := by decide

/-! ## The glyph indexer (vectors V-GI) -/

/-- V-GI-1 to V-GI-5. -/
theorem test_sel : ([0x41, 0x00, 0x7F, 0x80, 0xE9, 0x7FF, 0x800, 0x3042, 0xD7FF, 0xE000, 0xFFFF, 0x10000, 0x40000,
      0x80000, 0xFFFFF, 0x10FFFF] : List Char21).map (fun c => got (·.tr.sel) (exec (.giSel c) s0)) =
    ([0x41, 0x00, 0x7F, 0xC2, 0xC3, 0xDF, 0xE0, 0xE3, 0xED, 0xEE, 0xEF, 0xF0, 0xF1, 0xF2, 0xF3, 0xF4] :
      List Byte).map (fun b => some (some b)) := by decide
/-- V-GI-6 under REJECT. -/
theorem test_domain_reject : got (·.replies) (exec (.giDomain 0x80) s0) = some [.err (.unsupportedCharacter 0x80)] ∧
    got (·.replies) (exec (.giDomain 0x7F) s0) = some [] := by decide
/-- V-GI-6 under LEADING_BYTE. -/
theorem test_domain_leading : got (·.replies) (exec (.giDomain 0x80) (idle 0 0 .leadingByte [] 0)) = some [] := by decide
/-- V-GI-8. -/
theorem test_split : got (fun t => (t.tr.upper, t.tr.lower)) (exec (.giSplit 0x7F) s0) = some (some 7, some 15) := by decide
/-- V-GI-10: 128 + 6 div 2. -/
theorem test_index : got (·.tr.startOffset) (exec (.giIndex 2 6) s0) = some (some 131) := by decide
/-- V-GI-9, the highest offset. -/
theorem test_index_top : got (·.tr.startOffset) (exec (.giIndex 15 15) s0) = some (some 967) := by decide
/-- V-GI-11. -/
theorem test_par : got (·.tr.par) (exec (.giPar 2) s0) = some (some false) ∧
    got (·.tr.par) (exec (.giPar 15) s0) = some (some true) := by decide
/-- V-GI-15 and V-GI-16: the corrected bound passes 961 and 967. -/
theorem test_bounds_full : got (·.replies) (exec (.giBounds 961) s0) = some [] ∧
    got (·.replies) (exec (.giBounds 967) s0) = some [] := by decide
/-- V-GI-19: at ATLAS_LEN = 312 the character 'A' being looked up is refused a read. -/
theorem test_bounds_short :
    got (·.replies) (exec (.giBounds 256)
      { s0 with cfg := { s0.cfg with atlasLen := 312 }, tr := { Transient.empty with ch := some 0x41 } }) =
      some [.err (.unsupportedCharacter 0x41)] := by decide
/-- V-GI-12 for 'z', and V-GI-13 under LEADING_BYTE. -/
theorem test_lookup : got (fun t => (t.tr.startOffset, t.tr.par)) (exec (.giLookup 0x7A) s0) = some (some 453, some false) ∧
    got (fun t => (t.tr.startOffset, t.tr.par)) (exec (.giLookup 0xE9) (idle 0 0 .leadingByte [] 0)) =
      some (some 769, some true) := by decide
/-- V-GI-13 under REJECT. -/
theorem test_lookup_raises : got (·.replies) (exec (.giLookup 0xE9) s0) = some [.err (.unsupportedCharacter 0xE9)] := by
  decide

/-! ## The rasterizer (vectors V-GR) -/

/-- V-GR-2. -/
theorem test_addr : got (·.tr.addr) (exec (.grAddr 967 7) s0) = some (some 1023) := by decide
/-- R77: an offset of another form runs too, and the sum is exact: 8 + 8*7. -/
theorem test_addr_other_form : got (·.tr.addr) (exec (.grAddr 8 7) s0) = some (some 64) := by decide
/-- V-GR-3. -/
theorem test_load : got (·.tr.byte) (exec (.grLoad 264) (idle 0 0 .reject (cellT 256) 0)) = some (some 0x33) := by decide
/-- R78, U4: no meaning at ATLAS_LEN. -/
theorem test_load_outside :
    refusedWith .atlasOutOfRange (exec (.grLoad 312) { s0 with cfg := { s0.cfg with atlasLen := 312 } }) = true := by decide
/-- V-GR-4. -/
theorem test_nib : got (·.tr.nib) (exec (.grNib 0x5A false) s0) = some (some 5) ∧
    got (·.tr.nib) (exec (.grNib 0x5A true) s0) = some (some 10) := by decide
/-- V-GR-5: the character 'A' with atlas T. -/
theorem test_raster_odd : got (fun t => t.tr.bm.map mask32) (exec (.grRaster 256 true) (idle 0 0 .reject (cellT 256) 0)) =
    some (some 0xB3B3B3B3) := by decide
/-- V-GR-6: the character 'B' with atlas T. -/
theorem test_raster_even : got (fun t => t.tr.bm.map mask32) (exec (.grRaster 257 false) (idle 0 0 .reject (cellT 257) 0)) =
    some (some 0x358ADF24) := by decide

/-! ## The blitter (vectors V-BC) -/

/-- V-BC-1. -/
theorem test_test_left : [0, 1, 2, 3].map (fun j => got (·.tr.bit) (exec (.bcTest 8 j) s0)) =
    [true, false, false, false].map (fun b => some (some b)) := by decide
/-- V-BC-2. -/
theorem test_test_right : [0, 1, 2, 3].map (fun j => got (·.tr.bit) (exec (.bcTest 1 j) s0)) =
    [false, false, false, true].map (fun b => some (some b)) := by decide
/-- V-BC-4, last row: (-4, -2, 1, 1) gives (-2, 0, 2, 2). -/
theorem test_rect : got (·.tr.rect) (exec (.bcRect (-4) (-2) 1 1) s0) = some (some ⟨-2, 0, 2, 2⟩) := by decide
/-- V-BC-13: the sum wraps. -/
theorem test_rect_wraps : got (fun t => t.tr.rect.map (·.x)) (exec (.bcRect 2147483644 0 0 2) s0) =
    some (some (-2147483648)) := by decide
/-- R86: one command in the foreground colour. -/
theorem test_fill : got (·.trace) (exec (.bcFill 1 2 3 4) (idle 0 0 .reject [] 1)) =
    some [⟨⟨⟨1, 2, 3, 4⟩, 0x1234⟩, .ok⟩] := by decide
/-- A fill of size 0 is sent as it is (log 23). -/
theorem test_fill_size_0 : got (·.trace) (exec (.bcFill 1 2 0 4) (idle 0 0 .reject [] 1)) =
    some [⟨⟨⟨1, 2, 0, 4⟩, 0x1234⟩, .ok⟩] := by decide
/-- R86, R111: an error answer raises SurfaceWriteFailure. -/
theorem test_fill_fails : got (·.replies) (exec (.bcFill 1 2 3 4) { s0 with answers := [.err ⟨7⟩] }) =
    some [.err (.surfaceWriteFailure ⟨7⟩)] := by decide
/-- V-BC-3: the two fills that tell the bit order. -/
theorem test_blit : got corners (exec (.bcBlit #v[8, 1, 0, 0, 0, 0, 0, 0] 0 0) (idle 0 0 .reject [] 2)) =
    some [(0, 0), (6, 2)] := by decide
/-- V-BC-8: the sixth fill fails and is the last. -/
theorem test_blit_fails : got (fun t => (corners t, t.replies))
    (exec (.bcBlit #v[15, 15, 15, 15, 15, 15, 15, 15] 0 0)
      { s0 with answers := List.replicate 5 .ok ++ .err ⟨7⟩ :: List.replicate 26 .ok }) =
    some ([(0, 0), (2, 0), (4, 0), (6, 0), (0, 2), (2, 2)], [.err (.surfaceWriteFailure ⟨7⟩)]) := by decide

/-! ## The cursor and the host operations (vectors V-CA, V-EX, programs P1 to P5) -/

/-- V-CA-1. -/
theorem test_init : got (fun t => (cursor t, t.initialised)) (exec (.init 10 20) { State.reset with atlas := [] }) =
    some ((10, 20), true) := by decide
/-- V-CA-1. -/
theorem test_getpos : got (·.replies) (exec .getpos (idle 10 20 .reject [] 0)) = some [.pos 10 20] := by decide
/-- R28: before any INIT the launch pair, whatever it is. -/
theorem test_getpos_before_init :
    got (·.replies) (exec .getpos State.reset) = some [.pos Config.launchX.toInt Config.launchY.toInt] := rfl
/-- V-CA-2 at SCALE = 2. -/
theorem test_advance : got cursor (exec .caAdvance (idle 10 20 .reject [] 0)) = some (18, 20) := by decide
/-- R28, R125: the advance is no INIT. -/
theorem test_advance_before_init : got (·.initialised) (exec .caAdvance State.reset) = some false := by decide
/-- V-CA-7: a blank character at 2^15 - 8 on an instance of COORD_W = 16. -/
theorem test_putcU1_wraps_16 : got (fun t => (t.replies, cursor t))
    (exec (.putcU1 4 1) { idle 32760 0 .reject (cellP 256 0) 0 with cfg := narrowCfg }) =
    some ([.ok], (-32768, 0)) := by decide
/-- P4: four fills, Ok, cursor (8, 0). -/
theorem test_putcU1 : got (fun t => (corners t, t.replies, cursor t))
    (exec (.putcU1 0 0) (idle 0 0 .reject (cellP 0 0xF0) 4)) =
    some ([(0, 0), (2, 0), (4, 0), (6, 0)], [.ok], (8, 0)) := by decide
/-- V-CA-6: a blank character at 2^31 - 8. -/
theorem test_putcU1_wraps : got (fun t => (corners t, t.replies, cursor t))
    (exec (.putcU1 4 1) (idle 2147483640 0 .reject (cellP 256 0) 0)) = some ([], [.ok], (-2147483648, 0)) := by decide
/-- P3, U+00E9 under LEADING_BYTE at (34, 20). -/
theorem test_putcU2 : got (fun t => (corners t, t.replies, cursor t))
    (exec (.putcU2 3 0x29) (idle 34 20 .leadingByte (cellT 769) 4)) =
    some ([(34, 22), (34, 26), (34, 30), (34, 34)], [.ok], (42, 20)) := by decide
/-- V-EX-1: U+00E9 under REJECT. -/
theorem test_putcU2_rejected : got (fun t => (t.trace, t.replies, cursor t)) (exec (.putcU2 3 0x29) s0) =
    some ([], [.err (.unsupportedCharacter 0xE9)], (0, 0)) := by decide
/-- U+3042: sel 0xE3, offset 897, odd; low nibbles 0, 8, 0, 8, 0, 8, 0, 8 of T by hand. -/
theorem test_putcU3 : got (fun t => (corners t, t.replies, cursor t))
    (exec (.putcU3 3 0x42) (idle 0 0 .leadingByte (cellT 897) 4)) =
    some ([(0, 2), (0, 6), (0, 10), (0, 14)], [.ok], (8, 0)) := by decide
/-- V-GI-17: U+80000, a cell the source's literal bound would refuse; 16 fills. -/
theorem test_putcU4Low : got (fun t => (t.trace.length, t.replies, cursor t))
    (exec (.putcU4Low 2 0) (idle 0 0 .leadingByte (cellT 961) 16)) = some (16, [.ok], (8, 0)) := by decide
/-- U+100000: sel 0xF4, offset 962, even; high nibbles 1, 3, 6, 8, 11, 13, 0, 2 of T by hand: 13 fills. -/
theorem test_putcU4High : got (fun t => (t.trace.length, t.replies, cursor t))
    (exec (.putcU4High 0) (idle 0 0 .leadingByte (cellT 962) 13)) = some (13, [.ok], (8, 0)) := by decide
/-- R58: a surrogate and a word above 0x10FFFF are refused. -/
theorem test_illegal : refusedWith .notScalarValue (exec (.illegalSurrogate 0) s0) = true ∧
    refusedWith .notScalarValue (exec (.illegalAbove 0x110000) s0) = true := by decide
/-- R58: a string with a surrogate cannot be presented. -/
theorem test_draw_surrogate : refusedWith .notScalarValue (exec (.draw [0x41, 0xD800]) s0) = true := by decide
/-- R98: DRAW starts at the first character. -/
theorem test_draw : got (fun t => (t.call, t.pc)) (exec (.draw [0x41, 0x42]) s0) = some (some [0x41, 0x42], 0) := by decide
/-- P1, the step of 'A': 20 fills, the program counter at 'B', the cursor at (8, 0), no result yet. -/
theorem test_step_in_draw : got (fun t => (t.trace.length, t.pc, cursor t, t.replies))
    (step (drawing [0x41, 0x42] (idle 0 0 .reject (cellT 256) 20))) = some (20, 1, (8, 0), []) := by decide
/-- P5: DRAW of the empty string returns Ok. -/
theorem test_step_end_of_draw : got (fun t => (t.call, t.replies, cursor t)) (step (drawing [] s0)) =
    some (none, [.ok], (0, 0)) := by decide
/-- R45: the reference surface shows the strip of P4 and the background beside it. -/
theorem test_surface :
    got (fun t => (shownAt s0.cfg 0 16 16 0 t.trace 7 1, shownAt s0.cfg 0 16 16 0 t.trace 8 1,
      shownAt s0.cfg 0 16 16 0 t.trace 16 0)) (exec (.putcU1 0 0) (idle 0 0 .reject (cellP 0 0xF0) 4)) =
    some (some 0x1234, some 0, none) := by decide
/-- U2: a pixel of a failed fill holds any value, one beside it is untouched. -/
theorem test_surface_failed :
    got (fun t => (shownAt s0.cfg 5 16 16 0 t.trace 1 2, shownAt s0.cfg 5 16 16 0 t.trace 4 2))
      (exec (.bcFill 1 2 3 4) { s0 with answers := [.err ⟨7⟩] }) =
    some (some (Config.failedFillPixel 5 0 1 2 % 65536), some 0) := rfl
/-- The host's two views of an opcode-table word: the decoder, and the first step after reset. -/
theorem test_fetch_word : decodeTableWord 24 0xE9 = some (.putcU2 3 0x29) ∧
    got (·.replies) (step (State.reset.withFetchWord 24 0xE9)) = some [.err (.unsupportedCharacter 0xE9)] ∧
    got (·.tr.upper) (step (State.reset.withFetchWord 8 0x41)) = some (some 4) := by decide

/-! ## Witnesses: for every statement with hypotheses, a state and operands that meet them together, at boundary values -/

/-- Zeros are accepted scalar values of the domain. -/
theorem zeros_accepted (n : Nat) : ∀ c ∈ List.replicate n (0 : Char21), isScalar c = true ∧ Accepted s0.cfg c := by
  intro c hc
  rw [List.eq_of_mem_replicate hc]
  decide

/-- A state with an error answer in the middle of a DRAW's second character (V-EX-4's shape). -/
def failing (n : Nat) (m : Memory) : State :=
  { idle 0 0 .reject m 0 with answers := List.replicate n .ok ++ .err ⟨7⟩ :: [] }

/-- DecodeOfEncodeIsTheInstruction, at the largest operand of each format. -/
theorem test_witness_encode :
    (Instr.putcU3 0xD 0x7FF).wellFormed = true ∧ encode (.putcU3 0xD 0x7FF) = some (.char21, 0xD7FF) ∧
    (Instr.grAddr 967 7).wellFormed = true ∧ encode (.grAddr 967 7) = some (.off10, 1023) ∧
    encode (.giSplit 0xFF) = some (.sel8, 255) ∧ encode (.grNib 0x5A true) = some (.atlas8 true, 0x5A) ∧
    encode (.bcTest 8 3) = some (.nib4 3, 8) := by decide

/-- StepRunsTheDecodedInstruction, its five clauses. -/
theorem test_witness_step :
    ((drawing [0x41] s0).waiting = none ∧ (drawing [0x41] s0).call = some [0x41] ∧
      ([0x41] : List Char21)[(drawing [0x41] s0).pc]? = some 0x41) ∧
    ((drawing [] s0).call = some [] ∧ (drawing [] s0).pc = ([] : List Char21).length) ∧
    (Idle { s0 with direct := some ⟨.giSplit 0x41, rfl⟩ } ∧
      ({ s0 with direct := some ⟨.giSplit 0x41, rfl⟩ } : State).direct = some ⟨.giSplit 0x41, rfl⟩) ∧
    (Idle { s0 with requests := [.init 1 2, .getpos] } ∧
      ({ s0 with requests := [.init 1 2, .getpos] } : State).requests = .init 1 2 :: [.getpos] ∧
      ({ s0 with requests := [.draw [0x41]] } : State).requests = .draw [0x41] :: [] ∧
      ({ s0 with requests := [.putc 0x1FFFFF] } : State).requests = .putc 0x1FFFFF :: [] ∧
      ({ s0 with requests := [.getpos] } : State).requests = .getpos :: []) ∧
    (Idle s0 ∧ s0.direct = none ∧ s0.requests = []) := by decide

/-- StepKeepsTheInvariant and ProgramCounterNeverGoesBack: a DRAW at a character that is not accepted, and one at its
end. -/
theorem test_witness_invariant :
    Invariant (drawing [0x41, 0xE9] { s0 with initialised := false }) ∧ Invariant (drawing [0xE9] s0) ∧
    got (·.pc) (step (drawing [0xE9] s0)) = some 0 ∧ Invariant (drawing [] s0) ∧
    got (·.pc) (step (drawing [] s0)) = some 0 := by decide

/-- ProgramCounterNeverGoesBack, its other two clauses: a character drawn, and one whose fill is never answered. -/
theorem test_witness_pc :
    got (fun t => (t.pc, t.waiting.isSome)) (step (drawing [0] (idle 0 0 .reject (cellP 0 0xF0) 4))) = some (1, false) ∧
    got (fun t => (t.pc, t.waiting.isSome))
      (step (drawing [0] { idle 0 0 .reject (cellP 0 0xF0) 0 with answers := [.ok, .never] })) = some (0, true) := by decide

/-- NoInstructionChangesAtlasOrConfiguration, OnlyInitWritesCyAndTheAdvanceWritesCx, InitWritesTheCursor,
StepAddsAtMostThirtyTwoFills: an instruction that moves CY, one that gives the cursor its first value, one that moves CX,
and a step with the most fills. -/
theorem test_witness_frames :
    got (fun t => decide (t.cy ≠ s0.cy)) (exec (.init 1 2) s0) = some true ∧
    got (·.initialised) (exec (.init 0 0) State.reset) = some true ∧
    got (fun t => decide (t.cx ≠ s0.cx)) (exec .caAdvance s0) = some true ∧
    got (·.trace.length)
      (step { idle 0 0 .reject [] 32 with direct := some ⟨.bcBlit #v[15, 15, 15, 15, 15, 15, 15, 15] 0 0, rfl⟩ }) =
      some 32 := by decide

/-- AStepMovesTheCursorOnlyByInitOrACompletedCharacter: an INIT, a blank character inside a DRAW, and one issued by the
host. -/
theorem test_witness_cursor_moves :
    got cursor (step { s0 with requests := [.init 1 0] }) = some (1, 0) ∧
    got cursor (step (drawing [0x41] (idle 0 0 .reject (cellP 256 0) 0))) = some (8, 0) ∧
    got cursor (step { idle 0 0 .reject (cellP 256 0) 0 with requests := [.putc 0x41] }) = some (8, 0) := by decide

/-- SilentSurfaceHangsTheBlock, both clauses, and a character that could be issued. -/
theorem test_witness_silent :
    ({ s0 with answers := [.never] } : State).waiting = none ∧
    got (fun t => decide (t.waiting ≠ none)) (exec (.bcFill 0 0 1 1) { s0 with answers := [.never] }) = some true ∧
    isScalar 0x10FFFF = true := by decide

/-- SurfaceErrorsAreNeverInspected. -/
theorem test_witness_errors : 32 ≤ (List.replicate 31 Answer.ok ++ [Answer.err ⟨7⟩]).length := by decide

/-- SelGivesTheLeadByte, LookupFindsTheCellOrRaises: scalar values at the ends of the range, accepted or not. -/
theorem test_witness_scalar :
    isScalar 0 = true ∧ isScalar 0xD7FF = true ∧ isScalar 0xE000 = true ∧ isScalar 0x10FFFF = true ∧
    Accepted s0.cfg 0x7F ∧ ¬ Accepted s0.cfg 0x80 ∧ Accepted (idle 0 0 .leadingByte [] 0).cfg 0x10FFFF := by decide

/-- DomainPassesAsciiOrByPolicy, both clauses where they meet. -/
theorem test_witness_domain :
    (isScalar 0x7F = true ∧ (0x7F : Char21).toNat < 0x80) ∧
    (isScalar 0x80 = true ∧ 0x80 ≤ (0x80 : Char21).toNat ∧ s0.cfg.policy = .reject) ∧
    (idle 0 0 .leadingByte [] 0).cfg.policy = .leadingByte := by decide

/-- RectIsTheMagnifiedPixel, InitWritesTheCursor: the ends of the range of coordinates, and what lies beyond them. -/
theorem test_witness_width :
    InWidth s0.cfg (-2147483648) ∧ InWidth s0.cfg 2147483647 ∧ ¬ InWidth s0.cfg 2147483648 ∧
    InWidth narrowCfg (-32768) ∧ InWidth narrowCfg 32767 ∧ ¬ InWidth narrowCfg (-32769) := by decide

/-- PixelRectanglesTileTheCell: the highest origin that does not wrap at SCALE = 2, whose last rectangle reaches beyond the
coordinates, and the highest whose last pixel is the last coordinate. -/
theorem test_witness_tile :
    InWidth s0.cfg 2147483641 ∧ InWidth s0.cfg 2147483633 ∧ (2147483641 : Int) + 3 * 2 < 2 ^ 31 ∧
    (2147483633 : Int) + 7 * 2 < 2 ^ 31 ∧ s0.cfg.scale = 2 ∧ s0.cfg.coordW = 32 ∧
    covers (pixelRect s0.cfg 2147483641 2147483633 7 3) 2147483648 2147483648 = true ∧
    covers (pixelRect s0.cfg 2147483640 2147483632 7 3) 2147483647 2147483647 = true ∧
    covers (pixelRect s0.cfg 2147483640 2147483632 7 3) 2147483648 2147483647 = false := by decide

/-- BoundsPassesWhenTheLastReadIsInside, BoundsRaisesOutsideALookupToo: 967 passes at 1024 and
968 fails, with a character being looked up or none. -/
theorem test_witness_bounds :
    (967 : Offset).toNat + 57 ≤ s0.cfg.atlasLen.val ∧ s0.cfg.atlasLen.val ≤ (968 : Offset).toNat + 56 ∧
    ({ s0 with tr := { Transient.empty with ch := some 0x41 } } : State).tr.ch = some 0x41 ∧ s0.tr.ch = none := by decide

/-- LookupIsInjectiveOnTheDomain: two characters of the domain, and two that share a first code unit. -/
theorem test_witness_injective :
    s0.cfg.atlasLen.val = 1024 ∧ (0x7E : Char21).toNat < 0x80 ∧ (0x7F : Char21).toNat < 0x80 ∧
    leadByte (0xC0 : Char21).toNat = leadByte (0xFF : Char21).toNat := by decide

/-- LoadReadsInsideTheAtlasOnly, RasterReadsThePixelsOfTheCell, RasterTakesOneNibbleOfEachByte,
RasterNeedsTheBoundsCheck: the last address inside and the first outside. -/
theorem test_witness_atlas :
    (1023 : Offset).toNat < s0.cfg.atlasLen.val ∧
    ({ s0.cfg with atlasLen := 1023 } : BlockConfig).atlasLen.val ≤ (1023 : Offset).toNat ∧
    cellStart (0xFF : Byte).toNat + 57 ≤ s0.cfg.atlasLen.val ∧ (967 : Offset).toNat + 57 ≤ s0.cfg.atlasLen.val ∧
    s0.cfg.atlasLen.val ≤ (968 : Offset).toNat + 56 := by decide

/-- FillIssuesOneCommand, both clauses. -/
theorem test_witness_fill :
    (s0.waiting = none ∧ InWidth s0.cfg (-2147483648) ∧ InWidth s0.cfg 2147483647 ∧
      (idle 0 0 .reject [] 1).answers = .ok :: []) ∧
    (failing 0 []).answers = .err ⟨7⟩ :: [] := by decide

/-- BlitFillsEverySetPixelInOrder, BlitStopsAtTheFirstFailure and BlitterWritesNoRegister: V-BC-3, all fills answered Ok or
the second one failing. -/
theorem test_witness_blit :
    InWidth s0.cfg 0 ∧
    (fillsOf s0.cfg (bitmapOn #v[8, 1, 0, 0, 0, 0, 0, 0]) 0 0 = [⟨⟨0, 0, 2, 2⟩, 0x1234⟩, ⟨⟨6, 2, 2, 2⟩, 0x1234⟩]) ∧
    (idle 0 0 .reject [] 3).answers =
      List.replicate (fillsOf s0.cfg (bitmapOn #v[8, 1, 0, 0, 0, 0, 0, 0]) 0 0).length .ok ++ [.ok] ∧
    (failing 1 []).answers = List.replicate [(⟨⟨0, 0, 2, 2⟩, 0x1234⟩ : FillCmd)].length .ok ++ .err ⟨7⟩ :: [] ∧
    got (·.cx) (exec (.bcBlit #v[8, 1, 0, 0, 0, 0, 0, 0] 0 0) (failing 1 [])) = some 0 := by decide

/-- BlitHangsAtASilentFill, PutcHangsAtASilentFill: the second fill is never answered. -/
theorem test_witness_hangs :
    (idle 0 0 .reject [] 0).waiting = none ∧ InWidth s0.cfg 0 ∧ isScalar 0 = true ∧ Accepted s0.cfg 0 ∧
    fillsOf s0.cfg (bitmapOn #v[8, 1, 0, 0, 0, 0, 0, 0]) 0 0 = [⟨⟨0, 0, 2, 2⟩, 0x1234⟩] ++ ⟨⟨6, 2, 2, 2⟩, 0x1234⟩ :: [] ∧
    glyphFills s0.cfg (cellP 0 0xF0) (leadByte (0 : Char21).toNat) 0 0 =
      [⟨⟨0, 0, 2, 2⟩, 0x1234⟩] ++ ⟨⟨2, 0, 2, 2⟩, 0x1234⟩ :: [⟨⟨4, 0, 2, 2⟩, 0x1234⟩, ⟨⟨6, 0, 2, 2⟩, 0x1234⟩] ∧
    ({ idle 0 0 .reject (cellP 0 0xF0) 0 with answers := [.ok, .never] } : State).answers =
      List.replicate 1 .ok ++ .never :: [] := by decide

/-- InitWritesTheCursor, GetposReturnsTheCursor, AdvanceMovesRightByTheCellWidth, DrawOfTheEmptyStringReturnsOk; and
OperationsRunFromTheLaunchPair and LaunchPairIsTheSameAsOneInitFirst, at reset too. -/
theorem test_witness_idle :
    Idle s0 ∧ CursorInWidth s0 ∧ (Idle State.reset ∧ State.reset.initialised = false) ∧
    ((∀ c ∈ ([0] : List Char21), isScalar c = true) ∧ isScalar 0 = true) :=
  ⟨by decide, by decide, by decide, fun c hc => (zeros_accepted 1 c hc).1, by decide⟩

/-- HostOperationsAreRefusedDuringADraw. -/
theorem test_witness_busy : (drawing [] s0).call = some [] := by decide

/-- NonScalarWordsAreRefused: the ends of the ranges, on an idle block. -/
theorem test_witness_nonscalar :
    (0xD800 ≤ (0xD800 : Char21).toNat ∧ (0xDFFF : Char21).toNat ≤ 0xDFFF) ∧ 0x110000 ≤ (0x110000 : Char21).toNat ∧
    Idle s0 := by decide

/-- PutcDrawsAnInDomainCharacter: U+0000 with atlas P4, and an atlas with no byte to spare. -/
theorem test_witness_putcU1 :
    (idle 0 0 .reject (cellP 0 0xF0) 4).waiting = none ∧
    cellStart (16 * (0 : BitVec 3).toNat + (0 : Nib).toNat) + 57 ≤
      ({ s0.cfg with atlasLen := 57 } : BlockConfig).atlasLen.val ∧
    (idle 0 0 .reject (cellP 0 0xF0) 4).answers =
      List.replicate (glyphFills s0.cfg (cellP 0 0xF0) 0 0 0).length .ok ++ [] := by decide

/-- PutcDrawsByTheLeadByte, its four clauses, each with the first or last character of its class. -/
theorem test_witness_putc_wide :
    (idle 0 0 .leadingByte (cellT 769) 4).cfg.policy = .leadingByte ∧
    ((Instr.putcU2 3 0).wellFormed = true ∧ cellStart (0xC0 + (3 : BitVec 5).toNat) + 57 ≤ 1024 ∧
      (idle 0 0 .leadingByte (cellT 769) 4).answers =
        List.replicate (glyphFills (idle 0 0 .leadingByte [] 0).cfg (cellT 769) (0xC0 + (3 : BitVec 5).toNat) 0 0).length .ok
          ++ []) ∧
    ((Instr.putcU3 0xF 0xFFF).wellFormed = true ∧
      (glyphFills s0.cfg (cellP 903 0) (0xE0 + (0xF : BitVec 4).toNat) 0 0).length = 0) ∧
    ((Instr.putcU4Low 3 0x3FFFF).wellFormed = true ∧
      (glyphFills s0.cfg (cellP 961 0) (0xF0 + (3 : BitVec 2).toNat) 0 0).length = 0) ∧
    (glyphFills s0.cfg (cellP 962 0) 0xF4 0 0).length = 0 := by decide

/-- PutcRaisesUnsupportedCharacter: outside the domain under REJECT, and inside it with a short atlas. -/
theorem test_witness_putc_unsupported :
    s0.waiting = none ∧ isScalar 0x80 = true ∧ ¬ Accepted s0.cfg 0x80 ∧
    ¬ Accepted { s0.cfg with atlasLen := 312 } 0x41 ∧ Accepted { s0.cfg with atlasLen := 313 } 0x41 := by decide

/-- PutcRaisesSurfaceWriteFailure: the second fill of U+0000 with atlas P4 fails. -/
theorem test_witness_putc_failure :
    (failing 1 (cellP 0 0xF0)).waiting = none ∧ isScalar 0 = true ∧ Accepted s0.cfg 0 ∧
    glyphFills s0.cfg (cellP 0 0xF0) (leadByte (0 : Char21).toNat) 0 0 =
      [⟨⟨0, 0, 2, 2⟩, 0x1234⟩] ++ ⟨⟨2, 0, 2, 2⟩, 0x1234⟩ :: [⟨⟨4, 0, 2, 2⟩, 0x1234⟩, ⟨⟨6, 0, 2, 2⟩, 0x1234⟩] ∧
    (failing 1 (cellP 0 0xF0)).answers = List.replicate 1 .ok ++ .err ⟨7⟩ :: [] := by decide

/-- PutcAdvancesExactlyOnSuccess: success, failure, no answer. -/
theorem test_witness_putc_outcomes :
    isPutc (.putcU1 0 0) = true ∧ got cursor (exec (.putcU1 0 0) (idle 0 0 .reject (cellP 0 0xF0) 4)) = some (8, 0) ∧
    got cursor (exec (.putcU1 0 0) (failing 3 (cellP 0 0xF0))) = some (0, 0) ∧
    got (fun t => (cursor t, t.waiting.isSome))
      (exec (.putcU1 0 0) { idle 0 0 .reject (cellP 0 0xF0) 0 with answers := [.never] }) = some ((0, 0), true) := by decide

/-- PutcReadsOnlyTheEightBytesOfItsCell: two atlases that differ outside the cell of U+0000. -/
theorem test_witness_putc_reads :
    ∀ i < 8, Memory.read (cellP 0 0xF0 ++ [(64, 0xFF)]) (cellStart (leadByte (0 : Char21).toNat) + 8 * i) =
      Memory.read (cellP 0 0xF0) (cellStart (leadByte (0 : Char21).toNat) + 8 * i) := by decide

/-- RejectReadsOnlyTheLowerHalf: two atlases that differ at 512 only. -/
theorem test_witness_lower_half :
    s0.cfg.policy = .reject ∧ ∀ a < 512, Memory.read [(512, 0xFF)] a = Memory.read [] a :=
  ⟨rfl, fun a h => if_neg (show ¬ (512 : Nat) = a by omega)⟩

/-- DrawRendersItsStringInOrder: U+0000 twice with atlas P4 (V-CA-9's cell). -/
theorem test_witness_draw :
    (Idle (idle 0 0 .reject (cellP 0 0xF0) 8) ∧ InWidth s0.cfg 0) ∧
    (∀ c ∈ ([0, 0] : List Char21), isScalar c = true ∧ Accepted s0.cfg c) ∧
    (idle 0 0 .reject (cellP 0 0xF0) 8).answers =
      List.replicate (textFills s0.cfg (cellP 0 0xF0) [0, 0] 0 0).length .ok ++ [] :=
  ⟨by decide, zeros_accepted 2, by rw [← List.map_const']; decide⟩

/-- DrawStopsAtAnUnsupportedCharacter: V-EX-2's shape with U+0000 for 'A'. -/
theorem test_witness_draw_unsupported :
    InWidth s0.cfg 0 ∧ (∀ d ∈ ([0] : List Char21), isScalar d = true ∧ Accepted s0.cfg d) ∧ isScalar 0xE9 = true ∧
    (∀ d ∈ ([0, 0] : List Char21), isScalar d = true) ∧ ¬ Accepted s0.cfg 0xE9 ∧
    (idle 0 0 .reject (cellP 0 0xF0) 4).answers =
      List.replicate (textFills s0.cfg (cellP 0 0xF0) [0] 0 0).length .ok ++ [] :=
  ⟨by decide, zeros_accepted 1, by decide, fun d hd => (zeros_accepted 2 d hd).1, by decide,
    by rw [← List.map_const']; decide⟩

/-- DrawStopsAtAFailedFill: the second fill of the second character fails (V-EX-4's shape). -/
theorem test_witness_draw_failure :
    InWidth s0.cfg 0 ∧ (∀ d ∈ ([0] : List Char21), isScalar d = true ∧ Accepted s0.cfg d) ∧ isScalar 0 = true ∧
    (∀ d ∈ ([0, 0] : List Char21), isScalar d = true) ∧ Accepted s0.cfg 0 ∧
    glyphFills s0.cfg (cellP 0 0xF0) (leadByte (0 : Char21).toNat)
      (moved s0.cfg 0 (([0] : List Char21).length * (4 * s0.cfg.scale))) 0 =
      [⟨⟨8, 0, 2, 2⟩, 0x1234⟩] ++ ⟨⟨10, 0, 2, 2⟩, 0x1234⟩ :: [⟨⟨12, 0, 2, 2⟩, 0x1234⟩, ⟨⟨14, 0, 2, 2⟩, 0x1234⟩] ∧
    (failing 5 (cellP 0 0xF0)).answers =
      List.replicate ((textFills s0.cfg (cellP 0 0xF0) [0] 0 0).length + 1) .ok ++ .err ⟨7⟩ :: [] :=
  ⟨by decide, zeros_accepted 1, by decide, fun d hd => (zeros_accepted 2 d hd).1, by decide, by decide,
    by rw [List.replicate_add, ← List.map_const']; decide⟩

/-- TwoDrawsAreOneDrawOfTheJoinedString: a first DRAW of one blank character that returns Ok. -/
theorem test_witness_two_draws :
    (Idle (idle 0 0 .reject (cellP 256 0) 0) ∧ (idle 0 0 .reject (cellP 256 0) 0).requests = [] ∧
      (idle 0 0 .reject (cellP 256 0) 0).direct = none) ∧
    (∀ c ∈ ([0] : List Char21), isScalar c = true) ∧
    got (·.replies) (drawRun [0x41] 2 (idle 0 0 .reject (cellP 256 0) 0)) = some [.ok] :=
  ⟨by decide, fun c hc => (zeros_accepted 1 c hc).1, by decide⟩

end Sys2Proof.Tests
end

/-! # Scope: the invariant at reset, the full atlas, wide coordinate operands, the surface's errors -/

section

namespace Sys2Proof.Machine

open Sys2Proof.Safety

/-! ## Reset (R28, R125) -/

/-- A 32-bit word read in two's complement is a coordinate of the default width. -/
theorem toInt_inWidth_resetConfig (v : BitVec 32) : InWidth resetConfig v.toInt :=
  ⟨BitVec.le_toInt v, BitVec.toInt_lt⟩

/-- Settles O6: each of the invariant's four parts, the cursor for any launch pair. -/
theorem resetMeetsTheInvariant : Obligations.ResetMeetsTheInvariant :=
  ⟨reset_atlas_wf, ⟨toInt_inWidth_resetConfig _, toInt_inWidth_resetConfig _⟩, rfl, rfl⟩

/-! ## The bounds law (R72, R75) -/

/-- The bounds check of a selector's cell, on its start address. -/
theorem boundsOk_sel_iff {n : Nat} {sel : Byte} :
    boundsOk n (startOffsetOf (upperOf sel) (lowerOf sel)) = true ↔ cellStart sel.toNat + 57 ≤ n := by
  rw [boundsOk_iff, startOffsetOf_sel_toNat]

/-- The row addresses of a selector's cell, on its start address. -/
theorem rowAddr_sel (sel : Byte) (i : Fin 8) :
    rowAddr (startOffsetOf (upperOf sel) (lowerOf sel)) i = cellStart sel.toNat + 8 * i.val := by
  rw [rowAddr, startOffsetOf_sel_toNat, Config.rowBytes_eq, Nat.mul_comm]

/-- Settles O24: no cell starts above 967, and the cells of 0xFE and 0xFF start there. -/
theorem fullAtlasIsTheSmallestThatHoldsEveryCell : Obligations.FullAtlasIsTheSmallestThatHoldsEveryCell := by
  refine ⟨fun sel => ?_, rowAddr_sel 0xFE 7, rowAddr_sel 0xFF 7, fun n hn => ⟨0xFF, ?_⟩⟩
  · have hcell := cellStart_le sel.isLt
    refine ⟨boundsOk_sel_iff.mpr (by omega), fun i => ?_⟩
    rw [rowAddr_sel]
    omega
  · have hlast : cellStart (0xFF : Byte).toNat = 967 := rfl
    rw [Bool.eq_false_iff, ne_eq, boundsOk_sel_iff, hlast]
    omega

/-! ## Coordinate operands beyond COORD_W bits (log 23) -/

/-- Narrowing twice is narrowing once. -/
@[simp] theorem narrow_moved_zero (cfg : BlockConfig) (x : Coord) :
    narrow cfg.coordW (moved cfg x 0) = narrow cfg.coordW x := by
  rw [narrow_of_inWidth (moved_inWidth cfg x 0), moved_zero_eq]

/-- A pixel's rectangle depends only on the coordinates its origin counts as (R85, R90). -/
@[simp] theorem pixelRect_moved_zero (cfg : BlockConfig) (x y : Coord) (i : Fin 8) (j : Fin 4) :
    pixelRect cfg (moved cfg x 0) (moved cfg y 0) i j = pixelRect cfg x y i j := by
  simp only [pixelRect_eq, pixelFill, moved_moved, Nat.zero_add]

/-- The rectangle of BC.FILL depends only on the coordinates its corner counts as (R86). -/
@[simp] theorem fillRect_moved_zero (cfg : BlockConfig) (x y : Coord) (w h : Nat) :
    fillRect cfg (moved cfg x 0) (moved cfg y 0) w h = fillRect cfg x y w h := by
  simp only [fillRect, narrow_moved_zero]

/-- A fill leaves the configuration alone (R23). -/
theorem fill_cfg {r : Rect} {s t : State} {e : FillEnd} (h : fill r s = (e, t)) : t.cfg = s.cfg :=
  (fill_spec h).1.cfg

/-- The blitter's loop depends only on the coordinates its origin counts as. -/
theorem blitFrom_moved_zero {cfg : BlockConfig} (bm : Bitmap) (x y : Coord) (ps : List (Fin 8 × Fin 4)) :
    ∀ {s : State}, s.cfg = cfg → blitFrom bm (moved cfg x 0) (moved cfg y 0) ps s = blitFrom bm x y ps s := by
  induction ps with
  | nil => intro s _; rfl
  | cons p ps ih =>
    rintro s rfl
    by_cases hb : testBit bm[p.1] p.2 = true
    · simp only [blitFrom, if_pos hb, pixelRect_moved_zero]
      rcases hf : fill (pixelRect s.cfg x y p.1 p.2) s with ⟨e, t⟩
      cases e with
      | done => exact ih (fill_cfg hf)
      | failed e => rfl
      | silent => rfl
    · simp only [blitFrom, if_neg hb]
      exact ih rfl

/-- Settles O34: each of the four operations reads a coordinate through `narrow` or a sum modulo 2^COORD_W. -/
theorem wideOperandsCountAsTheirLowBits : Obligations.WideOperandsCountAsTheirLowBits := by
  intro s x y
  refine ⟨moved_inWidth _ _ _, moved_inWidth _ _ _, ?init, fun i j => ?rect, fun w h => ?fill, fun bm => ?blit⟩
  case init => simp only [exec, execInit, narrow_moved_zero]
  case rect => simp only [exec, execBcRect, narrow_moved_zero, pixelRect_moved_zero]
  case fill => simp only [exec, execBcFill, fillRect_moved_zero]
  case blit => simp only [exec, execBcBlit, narrow_moved_zero, blitFrom_moved_zero bm x y scan (latch_cfg _ s)]

/-! ## Renaming the surface's errors (R12) -/

section Rename

variable (f : SurfErr → SurfErr)

@[simp] theorem renameErrors_cfg (s : State) : (renameErrors f s).cfg = s.cfg := rfl

theorem renameErrors_advance (s : State) : renameErrors f (advance s) = advance (renameErrors f s) := rfl

/-- Returning a result commutes with the renaming, which reaches the result too. -/
theorem renameErrors_finish (r : Reply) (s : State) :
    renameErrors f (finish r s) = finish (renameReply f r) (renameErrors f s) := by
  simp [renameErrors, finish]

/-- UnsupportedCharacter carries no surface error (R110). -/
theorem renameErrors_raise_unsupportedCharacter (c : Char21) (s : State) :
    renameErrors f (raise (.unsupportedCharacter c) s) = raise (.unsupportedCharacter c) (renameErrors f s) :=
  renameErrors_finish f _ s

/-- SurfaceWriteFailure passes the surface's error on (R111). -/
theorem renameErrors_raise_surfaceWriteFailure (e : SurfErr) (s : State) :
    renameErrors f (raise (.surfaceWriteFailure e) s) = raise (.surfaceWriteFailure (f e)) (renameErrors f s) :=
  renameErrors_finish f _ s

theorem renameErrors_charDone (s : State) : renameErrors f (charDone s) = charDone (renameErrors f s) := by
  cases hc : s.call with
  | none => rw [charDone_outside hc, charDone_outside (s := renameErrors f s) hc, renameErrors_finish]; rfl
  | some str => rw [charDone_inside hc, charDone_inside (s := renameErrors f s) hc]; rfl

/-! ### Fills -/

/-- The end of a sequence of fills with its error renamed. -/
def renameEnd : FillEnd → FillEnd
  | .done => .done
  | .failed e => .failed (f e)
  | .silent => .silent

/-- The end of a sequence of fills and the state it leaves, with every error renamed. -/
def renameFills (p : FillEnd × State) : FillEnd × State := (renameEnd f p.1, renameErrors f p.2)

/-- A fill with a listed answer commutes with the renaming. -/
theorem fill_renameErrors (r : Rect) {s : State} (h : s.answers ≠ []) :
    fill r (renameErrors f s) = renameFills f (fill r s) := by
  obtain ⟨a, rest, ha⟩ := List.exists_cons_of_ne_nil h
  cases a <;> simp [fill, surfaceDraw, ha, renameErrors, renameFills, renameEnd, renameAnswer]

/-- A draw takes the first listed answer, if there is one (R17, R135). -/
theorem surfaceDraw_answers (s : State) : (surfaceDraw s).2.answers = s.answers.tail := by
  cases h : s.answers <;> simp [surfaceDraw, h]

/-- A fill makes one draw (R86). -/
theorem fill_answers (r : Rect) (s : State) : (fill r s).2.answers = s.answers.tail := by
  rw [← surfaceDraw_answers, fill]
  rcases surfaceDraw s with ⟨a, t⟩
  cases a <;> rfl

/-- The blitter's loop commutes with the renaming while the state lists an answer for each pixel still to visit. -/
theorem blitFrom_renameErrors (bm : Bitmap) (ox oy : Coord) (ps : List (Fin 8 × Fin 4)) :
    ∀ {s : State}, ps.length ≤ s.answers.length →
      blitFrom bm ox oy ps (renameErrors f s) = renameFills f (blitFrom bm ox oy ps s) := by
  induction ps with
  | nil => intro s _; rfl
  | cons p ps ih =>
    intro s h
    rw [List.length_cons] at h
    by_cases hb : testBit bm[p.1] p.2 = true
    · have hne : s.answers ≠ [] := List.ne_nil_of_length_pos (by omega)
      simp only [blitFrom, if_pos hb, renameErrors_cfg, fill_renameErrors f _ hne]
      rcases hf : fill (pixelRect s.cfg ox oy p.1 p.2) s with ⟨e, t⟩
      cases e with
      | done =>
        have ht : t.answers = s.answers.tail := by rw [← fill_answers, hf]
        refine ih ?_
        rw [ht, List.length_tail]
        omega
      | failed e => rfl
      | silent => rfl
    · simp only [blitFrom, if_neg hb]
      exact ih (by omega)

/-- What follows the fills commutes with the renaming if the operation's success does. -/
theorem afterFills_renameFills {next : State → State} (hn : ∀ t, next (renameErrors f t) = renameErrors f (next t))
    (p : FillEnd × State) : afterFills next (renameFills f p) = renameErrors f (afterFills next p) := by
  obtain ⟨e, t⟩ := p
  cases e with
  | done => exact hn t
  | failed e => exact (renameErrors_raise_surfaceWriteFailure f e t).symm
  | silent => rfl

/-! ### Instructions -/

/-- A guard of two outcomes commutes with a change of the next state if each of them does. -/
theorem ite_eq_mapNext_ite {g : State → State} {p : Prop} [Decidable p] {a b a' b' : Outcome}
    (ha : p → a' = mapNext g a) (hb : ¬ p → b' = mapNext g b) :
    (if p then a' else b') = mapNext g (if p then a else b) := by
  split
  · exact ha ‹p›
  · exact hb ‹¬ p›

/-- The outcome of a failed check commutes with the renaming. -/
theorem next_raise_unsupportedCharacter (c : Char21) (s : State) :
    (.next (raise (.unsupportedCharacter c) (renameErrors f s)) : Outcome) =
      mapNext (renameErrors f) (.next (raise (.unsupportedCharacter c) s)) :=
  congrArg _ (renameErrors_raise_unsupportedCharacter f c s).symm

/-- The outcome of the fills of BC.FILL and BC.BLIT commutes with the renaming if the fills do. -/
theorem next_afterFills {p q : FillEnd × State} (h : p = renameFills f q) :
    (.next (afterFills id p) : Outcome) = mapNext (renameErrors f) (.next (afterFills id q)) := by
  rw [h, afterFills_renameFills f (next := id) fun _ => rfl]
  rfl

/-- The rendering of a character commutes with the renaming (R97). -/
theorem render_renameErrors (c : Char21) {s : State} (h : 32 ≤ s.answers.length) :
    render c (renameErrors f s) = renameErrors f (render c s) := by
  by_cases ha : Accepted s.cfg c
  · have hb := blitFrom_renameErrors f (raster s.atlas.read (BitVec.ofNat 10 (cellStart (leadByte c.toNat)))
      (decide (leadByte c.toNat % 2 = 1))) s.cx s.cy scan (s := glyphStart c s) h
    rw [render_of_accepted ha, render_of_accepted (s := renameErrors f s) ha, ← afterFills_renameFills, ← hb]
    · rfl
    · intro t
      rw [renameErrors_charDone, renameErrors_advance]
  · rw [render_of_not_accepted ha, render_of_not_accepted (s := renameErrors f s) ha,
      renameErrors_raise_unsupportedCharacter]

/-- PUTC commutes with the renaming. -/
theorem putc_renameErrors (c : Char21) {s : State} (h : 32 ≤ s.answers.length) :
    putc c (renameErrors f s) = mapNext (renameErrors f) (putc c s) := by
  refine ite_eq_mapNext_ite (fun _ => ite_eq_mapNext_ite (fun _ => rfl) fun _ => ?_) fun _ => rfl
  rw [render_renameErrors f c h]
  rfl

/-- Every instruction commutes with the renaming, since none reads a payload. -/
theorem exec_renameErrors (i : Instr) {s : State} (h : 32 ≤ s.answers.length) :
    exec i (renameErrors f s) = mapNext (renameErrors f) (exec i s) := by
  cases i with
  | putcU1 u l => exact putc_renameErrors f _ h
  | putcU2 top low => exact putc_renameErrors f _ h
  | putcU3 top low => exact putc_renameErrors f _ h
  | putcU4Low top low => exact putc_renameErrors f _ h
  | putcU4High low => exact putc_renameErrors f _ h
  | illegalSurrogate low => rfl
  | illegalAbove word => rfl
  | giSplit sel => rfl
  | grAddr off j => rfl
  | grNib b par => rfl
  | bcTest n j => rfl
  | giIndex upper lower => rfl
  | giPar lower => rfl
  | bcRect ox oy j k => rfl
  | init x0 y0 =>
    refine ite_eq_mapNext_ite (fun _ => rfl) fun _ => ?_
    simp [mapNext, renameErrors, renameReply]
  | draw str => exact ite_eq_mapNext_ite (fun _ => rfl) fun _ => ite_eq_mapNext_ite (fun _ => rfl) fun _ => rfl
  | getpos =>
    refine ite_eq_mapNext_ite (fun _ => rfl) fun _ => ?_
    simp [mapNext, renameErrors, renameReply]
  | giSel c => exact ite_eq_mapNext_ite (fun _ => rfl) fun _ => rfl
  | giDomain c =>
    exact ite_eq_mapNext_ite
      (fun _ => ite_eq_mapNext_ite (fun _ => rfl) fun _ => next_raise_unsupportedCharacter f c s) fun _ => rfl
  | giBounds off =>
    exact ite_eq_mapNext_ite (fun _ => rfl) fun _ => next_raise_unsupportedCharacter f _ s
  | giLookup c =>
    refine ite_eq_mapNext_ite (fun _ => ?_) fun _ => rfl
    rw [renameErrors_cfg]
    split
    · exact next_raise_unsupportedCharacter f c s
    · rfl
  | grLoad a => exact ite_eq_mapNext_ite (fun _ => rfl) fun _ => rfl
  | grRaster off par => exact ite_eq_mapNext_ite (fun _ => rfl) fun _ => rfl
  | bcFill x y w k =>
    have hne : s.answers ≠ [] := List.ne_nil_of_length_pos (by omega)
    exact ite_eq_mapNext_ite (fun _ => rfl) fun _ => next_afterFills f (fill_renameErrors f _ (s := latch _ s) hne)
  | bcBlit bm ox oy =>
    exact ite_eq_mapNext_ite (fun _ => rfl) fun _ =>
      next_afterFills f (blitFrom_renameErrors f bm ox oy scan (s := latch _ s) h)
  | caAdvance => exact ite_eq_mapNext_ite (fun _ => rfl) fun _ => rfl

end Rename

/-- Settles O14, instruction by instruction: the updates of the state, a fill and the blitter's loop commute with the
renaming. -/
theorem surfaceErrorsAreNeverInspected : Obligations.SurfaceErrorsAreNeverInspected :=
  fun f i _ h => exec_renameErrors f i h

end Sys2Proof.Machine

end

/-! # State: the step and reset, the invariant, the frames of an instruction, history and the launch pair -/

section

namespace Sys2Proof.Machine

open Sys2Proof.Safety

/-- Not busy is idle (R129). -/
theorem busy_eq_false_iff {s : State} : s.busy = false ↔ Idle s := by
  simp [State.busy]

/-! ## What an instruction does to the registers -/

section Effects

variable {i : Instr} {s t : State}

/-- No effect reaches the configuration or the atlas (R23, R40). -/
theorem Effect.cfg_atlas (h : Effect i s t) : t.cfg = s.cfg ∧ t.atlas = s.atlas := by
  cases h with
  | latch tr hp => exact ⟨rfl, rfl⟩
  | exception x => exact ⟨rfl, rfl⟩
  | filled u hw hs hi =>
    split
    · simpa using And.intro hs.cfg hs.atlas
    · exact ⟨hs.cfg, hs.atlas⟩
  | failed u e hw hs hi => exact ⟨hs.cfg, hs.atlas⟩
  | silent u hw hs hi => exact ⟨hs.cfg, hs.atlas⟩
  | init x0 y0 hi hb => exact ⟨rfl, rfl⟩
  | draw str hi hb hs => exact ⟨rfl, rfl⟩
  | getpos hi hb => exact ⟨rfl, rfl⟩
  | advance hi hw => exact ⟨rfl, rfl⟩

/-- The cursor and the bit of the first INIT: they stay, or CX alone advances, or an INIT writes them (R95, R96). -/
theorem Effect.cursor (h : Effect i s t) :
    (t.initialised = s.initialised ∧ t.cx = s.cx ∧ t.cy = s.cy) ∨
    ((i = .caAdvance ∨ isPutc i = true) ∧ t.initialised = s.initialised ∧
      t.cx = moved s.cfg s.cx (4 * s.cfg.scale) ∧ t.cy = s.cy) ∨
    (∃ x y, i = .init x y ∧ t.cx = narrow s.cfg.coordW x ∧ t.cy = narrow s.cfg.coordW y) := by
  cases h with
  | latch tr hp => exact .inl ⟨rfl, rfl, rfl⟩
  | exception x => exact .inl ⟨rfl, rfl, rfl⟩
  | filled u hw hs hi =>
    split
    · rename_i hp
      refine .inr (.inl ⟨.inr hp, ?_⟩)
      simp [advanceX_eq, hs.cfg, hs.initialised, hs.cx, hs.cy]
    · exact .inl ⟨hs.initialised, hs.cx, hs.cy⟩
  | failed u e hw hs hi => exact .inl ⟨hs.initialised, hs.cx, hs.cy⟩
  | silent u hw hs hi => exact .inl ⟨hs.initialised, hs.cx, hs.cy⟩
  | init x0 y0 hi hb => exact .inr (.inr ⟨x0, y0, hi, rfl, rfl⟩)
  | draw str hi hb hs => exact .inl ⟨rfl, rfl, rfl⟩
  | getpos hi hb => exact .inl ⟨rfl, rfl, rfl⟩
  | advance hi hw => exact .inr (.inl ⟨.inl hi, rfl, rfl, rfl⟩)

/-- The call and its program counter: the call is over, or a DRAW starts, or a PUTC completes a character of the DRAW in
progress, or both stay, which for a PUTC means that a fill is outstanding (R20, R98, R135). -/
theorem Effect.call_pc (h : Effect i s t) :
    (t.call = none ∧ t.pc = 0) ∨
    (∃ str, s.call = none ∧ t.call = some str ∧ t.pc = 0 ∧ str.all isScalar = true) ∨
    (∃ str, s.call = some str ∧ t.call = some str ∧ t.pc = s.pc + 1 ∧ t.waiting = none) ∨
    (t.call = s.call ∧ t.pc = s.pc ∧ (isPutc i = true → t.waiting ≠ none)) := by
  cases h with
  | latch tr hp => exact .inr (.inr (.inr ⟨rfl, rfl, by simp [hp]⟩))
  | exception x => exact .inl ⟨rfl, rfl⟩
  | filled u hw hs hi =>
    obtain ⟨-, -, -, -, huw⟩ := hi
    split
    · cases hc : s.call with
      | none =>
        have hu : (Machine.advance u).call = none := hs.call.trans hc
        exact .inl (by simp [charDone_outside hu])
      | some str =>
        have hu : (Machine.advance u).call = some str := hs.call.trans hc
        refine .inr (.inr (.inl ⟨str, rfl, (charDone_call _).trans hu, ?_, (charDone_waiting _).trans (huw.trans hw)⟩))
        simp [charDone_inside hu, hs.pc]
    · rename_i hp
      exact .inr (.inr (.inr ⟨hs.call, hs.pc, fun hp' => absurd hp' hp⟩))
  | failed u e hw hs hi => exact .inl ⟨rfl, rfl⟩
  | silent u hw hs hi =>
    obtain ⟨-, cmd, -, -, -, huw⟩ := hi
    exact .inr (.inr (.inr ⟨hs.call, hs.pc, by simp [huw]⟩))
  | init x0 y0 hi hb => exact .inr (.inr (.inr ⟨rfl, rfl, by simp [hi, isPutc]⟩))
  | draw str hi hb hs =>
    obtain ⟨hc, -⟩ := busy_eq_false_iff.mp hb
    exact .inr (.inl ⟨str, hc, rfl, rfl, hs⟩)
  | getpos hi hb => exact .inr (.inr (.inr ⟨rfl, rfl, by simp [hi, isPutc]⟩))
  | advance hi hw => exact .inr (.inr (.inr ⟨rfl, rfl, by simp [hi, isPutc]⟩))

/-- A state with the trace and the outstanding fill of another has issued what that one has. -/
theorem Issued.congr {n : Nat} {u : State} {f : FillEnd} (h : Issued n s t f) (htr : u.trace = t.trace)
    (hw : u.waiting = t.waiting) : Issued n s u f := by
  cases f <;> simpa only [Issued, htr, hw] using h

/-- Nothing issued. -/
theorem Issued.none_of_eq {n : Nat} (htr : t.trace = s.trace) (hw : t.waiting = s.waiting) : Issued n s t .done :=
  ⟨[], by simpa using htr, by simp, by simp, hw⟩

/-- Every effect is a sequence of at most 32 fills as far as the trace and the outstanding fill go (R46, R87). -/
theorem Effect.issued (h : Effect i s t) : ∃ f, Issued 32 s t f := by
  cases h with
  | latch tr hp => exact ⟨.done, Issued.none_of_eq rfl rfl⟩
  | exception x => exact ⟨.done, Issued.none_of_eq rfl rfl⟩
  | filled u hw hs hi =>
    refine ⟨.done, ?_⟩
    split
    · exact hi.congr (by simp) (by simp)
    · exact hi
  | failed u e hw hs hi => exact ⟨.failed e, hi.congr rfl rfl⟩
  | silent u hw hs hi => exact ⟨.silent, hi⟩
  | init x0 y0 hi hb => exact ⟨.done, Issued.none_of_eq rfl rfl⟩
  | draw str hi hb hs => exact ⟨.done, Issued.none_of_eq rfl rfl⟩
  | getpos hi hb => exact ⟨.done, Issued.none_of_eq rfl rfl⟩
  | advance hi hw => exact ⟨.done, Issued.none_of_eq rfl rfl⟩

/-! ## The invariant (R9, R20, R27, R32, R46) -/

/-- The cursor stays in COORD_W bits: an advance and an INIT both narrow what they write (R90). -/
theorem Effect.keeps_cursorInWidth (h : Effect i s t) (hs : CursorInWidth s) : CursorInWidth t := by
  obtain ⟨hx, hy⟩ := hs
  unfold CursorInWidth
  rw [h.cfg_atlas.1]
  obtain ⟨-, htx, hty⟩ | ⟨-, -, htx, hty⟩ | ⟨x, y, -, htx, hty⟩ := h.cursor
  · rw [htx, hty]; exact ⟨hx, hy⟩
  · rw [htx, hty]; exact ⟨moved_inWidth _ _ _, hy⟩
  · rw [htx, hty]; exact ⟨narrow_inWidth _ _, narrow_inWidth _ _⟩

/-- The program counter stays within its string if a DRAW in progress has not reached the string's end. -/
theorem Effect.keeps_callWf (h : Effect i s t) (hs : callWf s = true)
    (hin : ∀ str, s.call = some str → s.pc < str.length) : callWf t = true := by
  rw [callWf_iff] at hs ⊢
  obtain ⟨hc, hp⟩ | ⟨str, -, hc, hp, hall⟩ | ⟨str, hcs, hc, hp, -⟩ | ⟨hc, hp, -⟩ := h.call_pc
  · simp [hc, hp]
  · simpa [hc, hp] using hall
  · have hlt := hin str hcs
    obtain ⟨-, hall⟩ := hs.1 str hcs
    refine ⟨fun str' hc' => ?_, by simp [hc]⟩
    obtain rfl : str = str' := Option.some.inj (hc.symm.trans hc')
    exact ⟨by omega, hall⟩
  · rw [hc, hp]; exact hs

/-- Fills issued from a state that waits for none leave at most the last one unanswered, and that one outstanding (R27,
R46). -/
theorem Issued.keeps_waitingWf {n : Nat} {f : FillEnd} (h : Issued n s t f) (hw : s.waiting = none)
    (hs : waitingWf s = true) : waitingWf t = true := by
  have hold : ∀ r ∈ s.trace, r.answer ≠ .never := ((waitingWf_iff s).mp hs).2 hw
  rw [waitingWf_iff]
  cases f with
  | done =>
    obtain ⟨new, htr, -, hok, htw⟩ := h
    refine ⟨by simp [htw, hw], fun _ r hr => ?_⟩
    rw [htr, List.mem_append] at hr
    obtain hr | hr := hr
    · exact hold r hr
    · simp [hok r hr]
  | failed e =>
    obtain ⟨new, cmd, htr, -, hok, htw⟩ := h
    refine ⟨by simp [htw, hw], fun _ r hr => ?_⟩
    simp only [htr, List.mem_append, List.mem_singleton] at hr
    obtain hr | hr | rfl := hr
    · exact hold r hr
    · simp [hok r hr]
    · simp
  | silent =>
    obtain ⟨new, cmd, htr, -, hok, htw⟩ := h
    rw [← List.append_assoc] at htr
    refine ⟨fun c hc => ?_, by simp [htw]⟩
    obtain rfl : cmd = c := by simpa [htw] using hc
    rw [htr, List.getLast?_concat, List.dropLast_concat]
    refine ⟨rfl, fun r hr => ?_⟩
    obtain hr | hr := List.mem_append.mp hr
    · exact hold r hr
    · simp [hok r hr]

/-- An instruction keeps the invariant where no fill is outstanding and a DRAW in progress is before its string's end. -/
theorem exec_keeps_invariant (hinv : Invariant s) (hw : s.waiting = none)
    (hin : ∀ str, s.call = some str → s.pc < str.length) (h : exec i s = .next t) : Invariant t := by
  obtain ⟨hatlas, hcursor, hcall, hwaiting⟩ := hinv
  have he := exec_effect h
  obtain ⟨f, hi⟩ := he.issued
  exact ⟨by rw [he.cfg_atlas.2]; exact hatlas, he.keeps_cursorInWidth hcursor, he.keeps_callWf hcall hin,
    hi.keeps_waitingWf hw hwaiting⟩

/-- Returning a result keeps the invariant. -/
theorem finish_keeps_invariant (r : Reply) (hinv : Invariant s) : Invariant (finish r s) := by
  obtain ⟨hatlas, hcursor, -, hwaiting⟩ := hinv
  exact ⟨hatlas, hcursor, rfl, hwaiting⟩

end Effects

/-- Settles O7, over what a step can be: the two ports it takes an operation from are no part of the invariant. -/
theorem stepKeepsTheInvariant : Obligations.StepKeepsTheInvariant := by
  intro s t hinv h
  obtain ⟨hw, hstep⟩ := step_cases h
  obtain ⟨str, w, hc, hg, he⟩ | ⟨-, -, -, rfl⟩ | ⟨d, hc, -, he⟩ | ⟨r, rest, hc, -, -, he⟩ | ⟨-, -, -, rfl⟩ := hstep
  · obtain ⟨hlt, -⟩ := List.getElem?_eq_some_iff.mp hg
    exact exec_keeps_invariant hinv hw (by simpa [hc] using hlt) he
  · exact finish_keeps_invariant .ok hinv
  · exact exec_keeps_invariant (s := { s with direct := none }) hinv hw (by simp [hc]) he
  · exact exec_keeps_invariant (s := { s with requests := rest }) hinv hw (by simp [hc]) he
  · exact hinv

/-! ## Frames (R19, R20, R23, R40) -/

/-- Settles O8. -/
theorem noInstructionChangesAtlasOrConfiguration : Obligations.NoInstructionChangesAtlasOrConfiguration :=
  fun _ _ _ h => (exec_effect h).cfg_atlas.symm

/-- Settles O9, over the three ways the cursor can go. -/
theorem onlyInitWritesCyAndTheAdvanceWritesCx : Obligations.OnlyInitWritesCyAndTheAdvanceWritesCx := by
  intro i s t h
  obtain ⟨-, hx, hy⟩ | ⟨hi, -, -, hy⟩ | ⟨x, y, hi, -, -⟩ := (exec_effect h).cursor
  · exact ⟨fun hne => absurd hy hne, fun hne => absurd hx hne⟩
  · exact ⟨fun hne => absurd hy hne, fun _ => .inr hi⟩
  · exact ⟨fun _ => ⟨x, y, hi⟩, fun _ => .inl ⟨x, y, hi⟩⟩

/-- A word that runs as an instruction is a PUTC: the two ILLEGAL rows are refused (R58). -/
theorem isPutc_of_exec_decodeChar {w : Char21} {s t : State} (h : exec (decodeChar w) s = .next t) :
    isPutc (decodeChar w) = true := by
  cases hw : isScalar w with
  | true => exact isPutc_decodeChar hw
  | false => rw [exec_decodeChar_refused hw] at h; cases h

/-- Settles O12: the step is the PUTC of a character, which moves the program counter, ends the call or waits for the
surface, or the return of Ok at the string's end. -/
theorem programCounterNeverGoesBack : Obligations.ProgramCounterNeverGoesBack := by
  intro s t str hc h
  obtain ⟨-, ⟨str', w, -, -, he⟩ | ⟨-, -, -, rfl⟩ | ⟨-, hn, -⟩ | ⟨-, -, hn, -⟩ | ⟨hn, -⟩⟩ := step_cases h
  · have hputc := isPutc_of_exec_decodeChar he
    obtain hend | ⟨-, hn, -⟩ | ⟨str'', hcs, hct, hp, hw⟩ | ⟨hct, hp, hw⟩ := (exec_effect he).call_pc
    · exact .inr (.inl hend)
    · simp [hc] at hn
    · exact .inl ⟨hct.trans (hcs.symm.trans hc), hp, hw⟩
    · exact .inr (.inr ⟨hct.trans hc, hp, hw hputc⟩)
  · exact .inr (.inl ⟨rfl, rfl⟩)
  all_goals simp [hc] at hn

/-! ## What an instruction does not read (R18, R24, R115, R28) -/

/-- What may be put before the past of a state or in place of what is still to be issued: whether an INIT has been
executed earlier, which an INIT in the state's own past settles, fills, results, and the two ports. -/
structure History where
  initialised : Bool → Bool
  initialised_true : initialised true = true
  trace : List FillRecord
  replies : List Reply
  requests : List Request → List Request
  direct : Option { i : Instr // i.isDirect = true } → Option { i : Instr // i.isDirect = true }

/-- The state with that history. -/
def History.onto (p : History) (s : State) : State :=
  { s with
    initialised := p.initialised s.initialised, trace := p.trace ++ s.trace, replies := p.replies ++ s.replies,
    requests := p.requests s.requests, direct := p.direct s.direct }

section History

variable (p : History)

@[simp] theorem History.onto_cfg (s : State) : (p.onto s).cfg = s.cfg := rfl

theorem History.onto_advance (s : State) : p.onto (advance s) = advance (p.onto s) := rfl

/-- A result returned is added after the earlier ones. -/
theorem History.onto_finish (r : Reply) (s : State) : p.onto (finish r s) = finish r (p.onto s) := by
  simp [History.onto, finish]

theorem History.onto_raise (x : Exc) (s : State) : p.onto (raise x s) = raise x (p.onto s) := p.onto_finish _ s

theorem History.onto_charDone (s : State) : p.onto (charDone s) = charDone (p.onto s) := by
  cases hc : s.call with
  | none => rw [charDone_outside hc, charDone_outside (s := p.onto s) hc, p.onto_finish]
  | some str => rw [charDone_inside hc, charDone_inside (s := p.onto s) hc]; rfl

/-- The surface's answer does not depend on the history: the answers and their counter are no part of it (R17). -/
theorem surfaceDraw_onto (s : State) : surfaceDraw (p.onto s) = Prod.map id p.onto (surfaceDraw s) := by
  cases ha : s.answers <;> simp [surfaceDraw, History.onto, ha]

/-- A fill is added after the earlier ones (R86). -/
theorem fill_onto (r : Rect) (s : State) : fill r (p.onto s) = Prod.map id p.onto (fill r s) := by
  simp only [fill, surfaceDraw_onto]
  rcases surfaceDraw s with ⟨a, t⟩
  cases a <;> simp [History.onto]

/-- The blitter's loop goes the same way after any history (R87, R88). -/
theorem blitFrom_onto (bm : Bitmap) (ox oy : Coord) (ps : List (Fin 8 × Fin 4)) :
    ∀ s : State, blitFrom bm ox oy ps (p.onto s) = Prod.map id p.onto (blitFrom bm ox oy ps s) := by
  induction ps with
  | nil => intro s; rfl
  | cons q ps ih =>
    intro s
    by_cases hb : testBit bm[q.1] q.2 = true
    · simp only [blitFrom, if_pos hb, History.onto_cfg, fill_onto]
      rcases fill (pixelRect s.cfg ox oy q.1 q.2) s with ⟨e, t⟩
      cases e with
      | done => exact ih t
      | failed e => rfl
      | silent => rfl
    · simp only [blitFrom, if_neg hb]
      exact ih s

/-- What follows the fills commutes with a history if the operation's success does. -/
theorem afterFills_onto {next : State → State} (hn : ∀ t, next (p.onto t) = p.onto (next t)) (g : FillEnd × State) :
    afterFills next (Prod.map id p.onto g) = p.onto (afterFills next g) := by
  obtain ⟨e, t⟩ := g
  cases e with
  | done => exact hn t
  | failed e => exact (p.onto_raise _ t).symm
  | silent => rfl

/-- The rendering of a character commutes with a history (R97). -/
theorem render_onto (c : Char21) (s : State) : render c (p.onto s) = p.onto (render c s) := by
  by_cases ha : Accepted s.cfg c
  · rw [render_of_accepted ha, render_of_accepted (s := p.onto s) ha, ← afterFills_onto, ← blitFrom_onto]
    · rfl
    · intro t
      rw [p.onto_charDone, p.onto_advance]
  · rw [render_of_not_accepted ha, render_of_not_accepted (s := p.onto s) ha, p.onto_raise]

theorem putc_onto (c : Char21) (s : State) : putc c (p.onto s) = mapNext p.onto (putc c s) := by
  refine ite_eq_mapNext_ite (fun _ => ite_eq_mapNext_ite (fun _ => rfl) fun _ => ?_) fun _ => rfl
  rw [render_onto]
  rfl

/-- The outcome of a failed check commutes with a history. -/
theorem next_raise_onto (x : Exc) (s : State) :
    (.next (raise x (p.onto s)) : Outcome) = mapNext p.onto (.next (raise x s)) :=
  congrArg _ (p.onto_raise x s).symm

/-- The outcome of the fills of BC.FILL and BC.BLIT commutes with a history if the fills do. -/
theorem next_afterFills_onto {g' g : FillEnd × State} (h : g' = Prod.map id p.onto g) :
    (.next (afterFills id g') : Outcome) = mapNext p.onto (.next (afterFills id g)) := by
  rw [h, afterFills_onto p (next := id) fun _ => rfl]
  rfl

/-- Every instruction answers the same after any history, and leaves that history in front of what it adds. -/
theorem exec_onto (i : Instr) (s : State) : exec i (p.onto s) = mapNext p.onto (exec i s) := by
  cases i with
  | putcU1 u l => exact putc_onto p _ s
  | putcU2 top low => exact putc_onto p _ s
  | putcU3 top low => exact putc_onto p _ s
  | putcU4Low top low => exact putc_onto p _ s
  | putcU4High low => exact putc_onto p _ s
  | illegalSurrogate low => rfl
  | illegalAbove word => rfl
  | giSplit sel => rfl
  | grAddr off j => rfl
  | grNib b par => rfl
  | bcTest n j => rfl
  | giIndex upper lower => rfl
  | giPar lower => rfl
  | bcRect ox oy j k => rfl
  | init x0 y0 =>
    refine ite_eq_mapNext_ite (fun _ => rfl) fun _ => ?_
    simp [mapNext, History.onto, p.initialised_true]
  | draw str => exact ite_eq_mapNext_ite (fun _ => rfl) fun _ => ite_eq_mapNext_ite (fun _ => rfl) fun _ => rfl
  | getpos =>
    refine ite_eq_mapNext_ite (fun _ => rfl) fun _ => ?_
    simp [mapNext, History.onto]
  | giSel c => exact ite_eq_mapNext_ite (fun _ => rfl) fun _ => rfl
  | giDomain c =>
    exact ite_eq_mapNext_ite (fun _ => ite_eq_mapNext_ite (fun _ => rfl) fun _ => next_raise_onto p _ s) fun _ => rfl
  | giBounds off => exact ite_eq_mapNext_ite (fun _ => rfl) fun _ => next_raise_onto p _ s
  | giLookup c =>
    refine ite_eq_mapNext_ite (fun _ => ?_) fun _ => rfl
    rw [History.onto_cfg]
    split
    · exact next_raise_onto p _ s
    · rfl
  | grLoad a => exact ite_eq_mapNext_ite (fun _ => rfl) fun _ => rfl
  | grRaster off par => exact ite_eq_mapNext_ite (fun _ => rfl) fun _ => rfl
  | bcFill x y w k =>
    refine ite_eq_mapNext_ite (fun _ => rfl) fun _ => next_afterFills_onto p ?_
    rw [← fill_onto]
    rfl
  | bcBlit bm ox oy =>
    refine ite_eq_mapNext_ite (fun _ => rfl) fun _ => next_afterFills_onto p ?_
    rw [← blitFrom_onto]
    rfl
  | caAdvance => exact ite_eq_mapNext_ite (fun _ => rfl) fun _ => rfl

end History

/-- Settles O15: earlier fills and results and other pending operations are such a history. -/
theorem historyHasNoInfluence : Obligations.HistoryHasNoInfluence :=
  fun i s h r q d => exec_onto ⟨id, rfl, h, r, fun _ => q, fun _ => d⟩ i s

/-! ## The launch pair (R28, D11) -/

/-- INIT on an idle block (R95). -/
theorem exec_init_of_idle {s : State} (h : Idle s) (x y : Coord) :
    exec (.init x y) s = .next { s with initialised := true, cx := narrow s.cfg.coordW x,
                                        cy := narrow s.cfg.coordW y, replies := s.replies ++ [.nothing] } := by
  simp [exec, execInit, busy_eq_false_iff.mpr h]

/-- Settles O45: a coordinate is its own narrowing, and an INIT executed earlier is a history. -/
theorem launchPairIsTheSameAsOneInitFirst : Obligations.LaunchPairIsTheSameAsOneInitFirst := by
  refine ⟨fun s hidle ⟨hx, hy⟩ => ?_, fun i s b hs => ?_⟩
  · rw [exec_init_of_idle hidle, narrow_of_inWidth hx, narrow_of_inWidth hy]
  · have hexec := exec_onto ⟨(· || b), rfl, [], [], id, id⟩ i s
    rwa [History.onto, hs] at hexec

/-- DRAW of scalar values on an idle block (R98). -/
theorem exec_draw_of_idle {s : State} (h : Idle s) {str : List Char21} (hs : ∀ c ∈ str, isScalar c = true) :
    exec (.draw str) s = .next { s with call := some str, pc := 0, tr := Transient.empty } := by
  simp [exec, execDraw, busy_eq_false_iff.mpr h, List.all_eq_true.mpr hs]

/-- GETPOS on an idle block (R100). -/
theorem exec_getpos_of_idle {s : State} (h : Idle s) :
    exec .getpos s = .next { s with replies := s.replies ++ [.pos s.cx s.cy] } := by
  simp [exec, execGetpos, busy_eq_false_iff.mpr h]

/-- Rendering a character leaves the bit of the first INIT alone. -/
theorem initialised_of_exec_decodeChar {w : Char21} {s t : State} (h : exec (decodeChar w) s = .next t) :
    t.initialised = s.initialised := by
  obtain ⟨hb, -⟩ | ⟨-, hb, -⟩ | ⟨x, y, hi, -⟩ := (exec_effect h).cursor
  · exact hb
  · exact hb
  · have hputc := isPutc_of_exec_decodeChar h
    simp [hi, isPutc] at hputc

/-- Settles O44: none of the three operations reads the bit of the first INIT, and only an INIT sets it. -/
theorem operationsRunFromTheLaunchPair : Obligations.OperationsRunFromTheLaunchPair := by
  intro s hidle hs
  refine ⟨fun str hstr => exec_draw_of_idle hidle hstr, exec_getpos_of_idle hidle, fun c hc => ?_⟩
  have hexec : exec (decodeChar c) s = .next (render c s) := by
    rw [exec_decodeChar hc, putc_of_scalar hc hidle.2]
  exact ⟨_, hexec, (initialised_of_exec_decodeChar hexec).trans hs⟩

/-! ## The step and reset (R20, R28, R98, R125, R137) -/

/-- During a DRAW a step runs the character at the program counter. -/
theorem step_of_char {s : State} {str : List Char21} {w : Char21} (hw : s.waiting = none) (hc : s.call = some str)
    (hg : str[s.pc]? = some w) : step s = exec (decodeChar w) s := by
  simp only [step, hw, hc, currentChar, hg]

/-- At the end of its string a DRAW returns Ok. -/
theorem step_of_end {s : State} {str : List Char21} (hw : s.waiting = none) (hc : s.call = some str)
    (hp : s.pc = str.length) : step s = .next (finish .ok s) := by
  have hg : str[s.pc]? = none := by simp [hp]
  simp only [step, hw, hc, currentChar, hg]

/-- An idle block runs the operation invoked directly. -/
theorem step_of_direct {s : State} {i : { i : Instr // i.isDirect = true }} (h : Idle s) (hd : s.direct = some i) :
    step s = exec i.val { s with direct := none } := by
  simp only [step, h.2, h.1, hd]

/-- An idle block takes the host's next move. -/
theorem step_of_request {s : State} {r : Request} {rest : List Request} (h : Idle s) (hd : s.direct = none)
    (hr : s.requests = r :: rest) : step s = exec r.instr { s with requests := rest } := by
  simp only [step, h.2, h.1, hd, hr]

/-- An idle block with nothing to do stays as it is. -/
theorem step_of_nothing {s : State} (h : Idle s) (hd : s.direct = none) (hr : s.requests = []) : step s = .next s := by
  simp only [step, h.2, h.1, hd, hr]

/-- Settles O4: one lemma for each place a step takes its operation from. -/
theorem stepRunsTheDecodedInstruction : Obligations.StepRunsTheDecodedInstruction :=
  ⟨fun _ _ _ hw hc hg => step_of_char hw hc hg, fun _ _ hw hc hp => step_of_end hw hc hp,
    fun _ _ h hd => step_of_direct h hd,
    fun _ _ h hd => ⟨fun _ _ hr => step_of_request h hd hr, fun _ hr => step_of_request h hd hr,
      fun _ hr => step_of_request h hd hr, fun hr => step_of_request h hd hr⟩,
    fun _ h hd hr => step_of_nothing h hd hr⟩

/-- Settles O5: reset lists these values. -/
theorem resetHoldsTheSpecValues : Obligations.ResetHoldsTheSpecValues :=
  ⟨rfl, rfl, rfl, rfl, rfl, rfl, rfl, rfl, rfl, rfl⟩

end Sys2Proof.Machine

end

/-! # Memory: what a step adds to trace and results, the pixels of a cell, the tiling, and the atlas bytes PUTC reads -/

section

namespace Sys2Proof.Machine

open Sys2Proof.Safety

/-! ## What a step adds to the trace and to the results (R46, R88, R89, R135) -/

section Adds

variable {i : Instr} {s t : State}

/-- However a sequence of fills ends, only the last command can have been answered otherwise than Ok. -/
theorem Issued.trace_append {n : Nat} {f : FillEnd} (h : Issued n s t f) :
    ∃ new : List FillRecord, t.trace = s.trace ++ new ∧ new.length ≤ n ∧ ∀ r ∈ new.dropLast, r.answer = .ok := by
  cases f with
  | done =>
    obtain ⟨new, htr, hlen, hok, -⟩ := h
    exact ⟨new, htr, hlen, fun r hr => hok r (List.mem_of_mem_dropLast hr)⟩
  | failed e =>
    obtain ⟨new, cmd, htr, hlen, hok, -⟩ := h
    exact ⟨_, htr, by simpa using hlen, by simpa using hok⟩
  | silent =>
    obtain ⟨new, cmd, htr, hlen, hok, -⟩ := h
    exact ⟨_, htr, by simpa using hlen, by simpa using hok⟩

/-- A completed character returns Ok to the host, or nothing inside a DRAW (R20, R97). -/
theorem charDone_replies (s : State) :
    (charDone s).replies = s.replies ∨ (charDone s).replies = s.replies ++ [.ok] := by
  cases hc : s.call with
  | none => exact .inr (by rw [charDone_outside hc, finish_replies])
  | some str => exact .inl (by rw [charDone_inside hc])

/-- An effect returns nothing or one result (R24). -/
theorem Effect.replies (h : Effect i s t) : t.replies = s.replies ∨ ∃ r, t.replies = s.replies ++ [r] := by
  cases h with
  | latch tr hp => exact .inl rfl
  | exception x => exact .inr ⟨_, rfl⟩
  | filled u hw hs hi =>
    split
    · have hu : (Machine.advance u).replies = s.replies := hs.replies
      rw [← hu]
      exact (charDone_replies _).imp_right fun hr => ⟨_, hr⟩
    · exact .inl hs.replies
  | failed u e hw hs hi => exact .inr ⟨.err (.surfaceWriteFailure e), by rw [raise_replies, hs.replies]⟩
  | silent u hw hs hi => exact .inl hs.replies
  | init x0 y0 hi hb => exact .inr ⟨_, rfl⟩
  | draw str hi hb hs => exact .inl rfl
  | getpos hi hb => exact .inr ⟨_, rfl⟩
  | advance hi hw => exact .inl rfl

/-- An instruction adds at most 32 fills, all but the last answered Ok, and at most one result. -/
theorem exec_adds (h : exec i s = .next t) :
    ∃ (new : List FillRecord) (rs : List Reply),
      t.trace = s.trace ++ new ∧ new.length ≤ 32 ∧ t.replies = s.replies ++ rs ∧ rs.length ≤ 1 ∧
      ∀ r ∈ new.dropLast, r.answer = .ok := by
  obtain ⟨f, hi⟩ := (exec_effect h).issued
  obtain ⟨new, htr, hlen, hok⟩ := hi.trace_append
  obtain hr | ⟨r, hr⟩ := (exec_effect h).replies
  · exact ⟨new, [], htr, hlen, by rw [hr, List.append_nil], by simp, hok⟩
  · exact ⟨new, [r], htr, hlen, hr, by simp, hok⟩

end Adds

/-- Settles O11: a step runs one instruction, or returns the Ok of a DRAW, or does nothing. -/
theorem stepAddsAtMostThirtyTwoFills : Obligations.StepAddsAtMostThirtyTwoFills := by
  intro s t h
  obtain ⟨-, ⟨str, w, -, -, he⟩ | ⟨-, -, -, rfl⟩ | ⟨d, -, -, he⟩ | ⟨r, rest, -, -, -, he⟩ | ⟨-, -, -, rfl⟩⟩ :=
    step_cases h
  · exact exec_adds he
  · exact ⟨[], [.ok], by simp⟩
  · exact exec_adds (s := { s with direct := none }) he
  · exact exec_adds (s := { s with requests := rest }) he
  · exact ⟨[], [], by simp⟩

/-! ## The bitmap of a cell (R80, R82) -/

/-- GR.RASTER where the bounds check passes. -/
theorem exec_grRaster_of_boundsOk {s : State} {off : Offset} (h : boundsOk s.cfg.atlasLen off = true) (par : Bool) :
    exec (.grRaster off par) s =
      .next { s with tr := { s.tr with startOffset := some off, par := some par,
                                       bm := some (raster s.atlas.read off par) } } :=
  if_pos h

/-- A cell's start address fits the ten bits of OFF10. -/
theorem toNat_ofNat_cellStart {sel : Nat} (h : sel < 256) : (BitVec.ofNat 10 (cellStart sel)).toNat = cellStart sel := by
  have hcell := cellStart_le h
  rw [BitVec.toNat_ofNat, Nat.mod_eq_of_lt (by omega)]

/-- Settles O29: the cell passes the bounds check, and its bitmap holds its pixels. -/
theorem rasterReadsThePixelsOfTheCell : Obligations.RasterReadsThePixelsOfTheCell := by
  intro s sel h
  refine ⟨_, exec_grRaster_of_boundsOk (boundsOk_iff.mpr ?_) _, fun i hi j hj => bitmapOn_raster _ sel.isLt hi hj⟩
  rwa [toNat_ofNat_cellStart sel.isLt]

/-! ## The tiling of a cell (R42, R85) -/

/-- A sum that is a coordinate does not wrap (R90). -/
theorem moved_of_inWidth {cfg : BlockConfig} {x : Int} {n : Nat} (h : InWidth cfg (x + n)) : moved cfg x n = x + n :=
  narrow_of_inWidth h

/-- The corner of pixel `k` of a row or column whose last corner, that of pixel `m`, does not wrap. -/
theorem moved_pixel {cfg : BlockConfig} {x : Int} {m k : Nat} (hx : InWidth cfg x)
    (hlast : x + m * cfg.scale < 2 ^ (cfg.coordW - 1)) (hk : k ≤ m) :
    moved cfg x (k * cfg.scale) = x + k * cfg.scale := by
  have hmono : ((k * cfg.scale : Nat) : Int) ≤ m * cfg.scale := by exact_mod_cast Nat.mul_le_mul_right _ hk
  rw [moved_of_inWidth ⟨by omega, by omega⟩, Nat.cast_mul]

/-- A distance lies in the `k`-th of the stretches of length `n` exactly when `k` is its quotient by `n`. -/
theorem mem_stretch_iff_ediv_eq {n : Int} (hn : 0 < n) (x p k : Int) :
    (x + k * n ≤ p ∧ p < x + k * n + n) ↔ (p - x) / n = k := by
  rw [Int.ediv_eq_iff_of_pos hn]
  omega

/-- Where no corner wraps, the pixel's rectangle that covers a point is given by the point's distance from the origin in
units of SCALE. -/
theorem covers_pixelRect_iff {cfg : BlockConfig} {ox oy : Int} (hx : InWidth cfg ox) (hy : InWidth cfg oy)
    (hlastx : ox + 3 * cfg.scale < 2 ^ (cfg.coordW - 1)) (hlasty : oy + 7 * cfg.scale < 2 ^ (cfg.coordW - 1))
    (px py : Int) (i : Fin 8) (j : Fin 4) :
    covers (pixelRect cfg ox oy i j) px py = true ↔
      (px - ox) / cfg.scale = j.val ∧ (py - oy) / cfg.scale = i.val := by
  have hscale : (0 : Int) < cfg.scale := by exact_mod_cast cfg.scaleLegal.1
  rw [← mem_stretch_iff_ediv_eq hscale, ← mem_stretch_iff_ediv_eq hscale, pixelRect_eq, pixelFill,
    moved_pixel (m := 3) hx hlastx (by omega), moved_pixel (m := 7) hy hlasty (by omega)]
  simp only [covers, Bool.and_eq_true, decide_eq_true_eq, and_assoc]

/-- The quotient by SCALE is one of `m` pixels exactly within `m` times SCALE of the origin. -/
theorem exists_fin_ediv_eq_iff {n : Int} (hn : 0 < n) (m : Nat) (x p : Int) :
    (∃ k : Fin m, (p - x) / n = k.val) ↔ x ≤ p ∧ p < x + m * n := by
  have hlow : 0 ≤ (p - x) / n ↔ x ≤ p := by rw [Int.le_ediv_iff_mul_le hn]; omega
  have hhigh : (p - x) / n < m ↔ p < x + m * n := by rw [Int.ediv_lt_iff_lt_mul hn]; omega
  rw [← hlow, ← hhigh]
  constructor
  · rintro ⟨k, hk⟩
    omega
  · rintro ⟨h0, hm⟩
    exact ⟨⟨((p - x) / n).toNat, by omega⟩, (Int.toNat_of_nonneg h0).symm⟩

/-- Settles O35: a point's two quotients by SCALE name the one pixel whose rectangle covers it. -/
theorem pixelRectanglesTileTheCell : Obligations.PixelRectanglesTileTheCell := by
  intro cfg ox oy hx hy hlastx hlasty px py
  have hscale : (0 : Int) < cfg.scale := by exact_mod_cast cfg.scaleLegal.1
  have hcover := covers_pixelRect_iff hx hy hlastx hlasty px py
  have hcolumn := exists_fin_ediv_eq_iff hscale 4 ox px
  have hrow := exists_fin_ediv_eq_iff hscale 8 oy py
  simp only [hcover]
  refine ⟨⟨?_, ?_⟩, ?_⟩
  · rintro ⟨i, j, hj, hi⟩
    obtain ⟨hl, hr⟩ := hcolumn.mp ⟨j, hj⟩
    exact ⟨hl, hr, hrow.mp ⟨i, hi⟩⟩
  · rintro ⟨hl, hr, hin⟩
    obtain ⟨j, hj⟩ := hcolumn.mpr ⟨hl, hr⟩
    obtain ⟨i, hi⟩ := hrow.mpr hin
    exact ⟨i, j, hj, hi⟩
  · rintro i i' j j' ⟨hj, hi⟩ ⟨hj', hi'⟩
    exact ⟨Fin.ext (by omega), Fin.ext (by omega)⟩

/-! ## The atlas bytes a character reads (R38, R80) -/

/-- The state with another atlas. -/
def withAtlas (m : Memory) (s : State) : State := { s with atlas := m }

section OtherAtlas

variable (m : Memory)

theorem withAtlas_charDone (s : State) : withAtlas m (charDone s) = charDone (withAtlas m s) := by
  cases hc : s.call with
  | none => rw [charDone_outside hc, charDone_outside (s := withAtlas m s) hc]; rfl
  | some str => rw [charDone_inside hc, charDone_inside (s := withAtlas m s) hc]; rfl

/-- A fill does not read the atlas (R86). -/
theorem fill_withAtlas (r : Rect) (s : State) : fill r (withAtlas m s) = Prod.map id (withAtlas m) (fill r s) := by
  have hdraw : surfaceDraw (withAtlas m s) = Prod.map id (withAtlas m) (surfaceDraw s) := by
    cases ha : s.answers <;> simp [surfaceDraw, withAtlas, ha]
  simp only [fill, hdraw]
  rcases surfaceDraw s with ⟨a, t⟩
  cases a <;> rfl

/-- The blitter's loop does not read the atlas: its bitmap is already there (R87). -/
theorem blitFrom_withAtlas (bm : Bitmap) (ox oy : Coord) (ps : List (Fin 8 × Fin 4)) :
    ∀ s : State, blitFrom bm ox oy ps (withAtlas m s) = Prod.map id (withAtlas m) (blitFrom bm ox oy ps s) := by
  induction ps with
  | nil => intro s; rfl
  | cons p ps ih =>
    intro s
    have hcfg : (withAtlas m s).cfg = s.cfg := rfl
    by_cases hb : testBit bm[p.1] p.2 = true
    · simp only [blitFrom, if_pos hb, hcfg, fill_withAtlas]
      rcases fill (pixelRect s.cfg ox oy p.1 p.2) s with ⟨e, t⟩
      cases e with
      | done => exact ih t
      | failed e => rfl
      | silent => rfl
    · simp only [blitFrom, if_neg hb]
      exact ih s

/-- What PUTC does after its fills does not read the atlas (R97, R114). -/
theorem afterFills_withAtlas (g : FillEnd × State) :
    afterFills (fun t => charDone (advance t)) (Prod.map id (withAtlas m) g) =
      withAtlas m (afterFills (fun t => charDone (advance t)) g) := by
  obtain ⟨e, t⟩ := g
  cases e with
  | done => exact (withAtlas_charDone m (advance t)).symm
  | failed e => rfl
  | silent => rfl

end OtherAtlas

/-- The eight bytes of the cell of a character's first code unit are the same in two atlases. -/
def SameCell (m m' : Memory) (c : Char21) : Prop :=
  ∀ i < 8, m.read (cellStart (leadByte c.toNat) + 8 * i) = m'.read (cellStart (leadByte c.toNat) + 8 * i)

/-- A bitmap depends only on the eight bytes of its cell (R80). -/
theorem raster_of_sameCell {m m' : Memory} {c : Char21} (h : SameCell m m' c) (par : Bool) :
    raster m.read (BitVec.ofNat 10 (cellStart (leadByte c.toNat))) par =
      raster m'.read (BitVec.ofNat 10 (cellStart (leadByte c.toNat))) par := by
  have hrow (i : Fin 8) : rowAddr (BitVec.ofNat 10 (cellStart (leadByte c.toNat))) i =
      cellStart (leadByte c.toNat) + 8 * i.val := by
    rw [rowAddr, toNat_ofNat_cellStart (leadByte_lt c), Config.rowBytes_eq, Nat.mul_comm]
  simp only [raster, hrow, h _ (Fin.isLt _)]

/-- The rendering of a character reads the atlas only if the character is accepted, and then only the eight bytes of its
cell. -/
theorem render_withAtlas {m : Memory} {c : Char21} {s : State} (h : Accepted s.cfg c → SameCell m s.atlas c) :
    render c (withAtlas m s) = withAtlas m (render c s) := by
  by_cases ha : Accepted s.cfg c
  · have hbm := raster_of_sameCell (h ha) (decide (leadByte c.toNat % 2 = 1))
    have hstart : glyphStart c (withAtlas m s) = withAtlas m (glyphStart c s) := by
      simp only [glyphStart, withAtlas, hbm]
      rfl
    rw [render_of_accepted ha, render_of_accepted (s := withAtlas m s) ha, ← afterFills_withAtlas,
      ← blitFrom_withAtlas, hstart]
    simp only [withAtlas, hbm]
  · rw [render_of_not_accepted ha, render_of_not_accepted (s := withAtlas m s) ha]
    rfl

/-- A word answers the same with another atlas if the two agree on the cell it draws. -/
theorem exec_decodeChar_withAtlas {m : Memory} {c : Char21} {s : State}
    (h : Accepted s.cfg c → SameCell m s.atlas c) :
    exec (decodeChar c) (withAtlas m s) = mapNext (withAtlas m) (exec (decodeChar c) s) := by
  cases hc : isScalar c with
  | false => rw [exec_decodeChar_refused hc, exec_decodeChar_refused hc]; rfl
  | true =>
    rw [exec_decodeChar hc, exec_decodeChar hc]
    refine ite_eq_mapNext_ite (fun _ => ite_eq_mapNext_ite (fun _ => rfl) fun _ => ?_) fun _ => rfl
    rw [render_withAtlas h]
    rfl

/-- Settles O54. -/
theorem putcReadsOnlyTheEightBytesOfItsCell : Obligations.PutcReadsOnlyTheEightBytesOfItsCell :=
  fun _ _ _ h => exec_decodeChar_withAtlas fun _ => h

/-- The cell of a character of the domain lies in the lower half of the atlas (R33). -/
theorem cellStart_leadByte_le {c : Nat} (h : c < 0x80) : cellStart (leadByte c) ≤ 455 := by
  rw [leadByte, if_pos h, cellStart]
  omega

/-- Settles O55: under REJECT an accepted character is in the domain, so its cell ends below 512. -/
theorem rejectReadsOnlyTheLowerHalf : Obligations.RejectReadsOnlyTheLowerHalf := by
  intro s c m hreject h
  refine exec_decodeChar_withAtlas fun ⟨hdomain, _⟩ i hi => h _ ?_
  have hcell := cellStart_leadByte_le (hdomain.resolve_right (by simp [hreject]))
  omega

end Sys2Proof.Machine

end

/-! # Encoding: every word's row, encoding and decoding, words that are no scalar values, and the empty string -/

section

namespace Sys2Proof.Machine

open Sys2Proof.Safety Sys2Proof.Laws

/-! ## The seven rows of CHAR21, each by its range (R52, R58) -/

section Rows

variable {w : Char21}

theorem decodeChar_eq_putcU1 (h : w.toNat ≤ 0x7F) :
    decodeChar w = .putcU1 (w.extractLsb' 4 3) (w.extractLsb' 0 4) := by
  rw [decodeChar_eq, if_pos h]

theorem decodeChar_eq_putcU2 (h : 0x80 ≤ w.toNat ∧ w.toNat ≤ 0x7FF) :
    decodeChar w = .putcU2 (w.extractLsb' 6 5) (w.extractLsb' 0 6) := by
  rw [decodeChar_eq, if_neg (by omega), if_pos h.2]

theorem decodeChar_eq_illegalSurrogate (h : 0xD800 ≤ w.toNat ∧ w.toNat ≤ 0xDFFF) :
    decodeChar w = .illegalSurrogate (w.extractLsb' 0 11) := by
  rw [decodeChar_eq, if_neg (by omega), if_neg (by omega), if_pos h]

theorem decodeChar_eq_putcU3
    (h : 0x800 ≤ w.toNat ∧ w.toNat ≤ 0xFFFF ∧ ¬ (0xD800 ≤ w.toNat ∧ w.toNat ≤ 0xDFFF)) :
    decodeChar w = .putcU3 (w.extractLsb' 12 4) (w.extractLsb' 0 12) := by
  rw [decodeChar_eq, if_neg (by omega), if_neg (by omega), if_neg h.2.2, if_pos h.2.1]

theorem decodeChar_eq_putcU4Low (h : 0x10000 ≤ w.toNat ∧ w.toNat ≤ 0xFFFFF) :
    decodeChar w = .putcU4Low (w.extractLsb' 18 2) (w.extractLsb' 0 18) := by
  rw [decodeChar_eq, if_neg (by omega), if_neg (by omega), if_neg (by omega), if_neg (by omega), if_pos h.2]

theorem decodeChar_eq_putcU4High (h : 0x100000 ≤ w.toNat ∧ w.toNat ≤ 0x10FFFF) :
    decodeChar w = .putcU4High (w.extractLsb' 0 16) := by
  rw [decodeChar_eq, if_neg (by omega), if_neg (by omega), if_neg (by omega), if_neg (by omega), if_neg (by omega),
    if_pos h]

theorem decodeChar_eq_illegalAbove (h : 0x110000 ≤ w.toNat) : decodeChar w = .illegalAbove w := by
  rw [decodeChar_eq, if_neg (by omega), if_neg (by omega), if_neg (by omega), if_neg (by omega), if_neg (by omega),
    if_neg (by omega)]

end Rows

/-! ## Encoding a decoded word (R51, R58) -/

/-- A surrogate is its row's fixed bits and its low eleven bits. -/
theorem charSurrogate_extractLsb' {w : Char21} (h : 0xD800 ≤ w.toNat ∧ w.toNat ≤ 0xDFFF) :
    charSurrogate (w.extractLsb' 0 11) = w := by
  apply BitVec.eq_of_toNat_eq
  rw [charSurrogate_toNat, BitVec.extractLsb'_toNat, Nat.shiftRight_zero]
  omega

/-- A class U4 word from 0x100000 on is its row's fixed bits and its low sixteen bits. -/
theorem charU4High_extractLsb' {w : Char21} (h : 0x100000 ≤ w.toNat ∧ w.toNat ≤ 0x10FFFF) :
    charU4High (w.extractLsb' 0 16) = w := by
  apply BitVec.eq_of_toNat_eq
  rw [charU4High_toNat, BitVec.extractLsb'_toNat, Nat.shiftRight_zero]
  omega

/-- The encoding of the instruction a word decodes to is the word: no row drops a bit. -/
theorem encode_decodeChar (w : Char21) : encode (decodeChar w) = some (.char21, w.toNat) := by
  have hword {c : Char21} (h : c = w) : some (Format.char21, c.toNat) = some (.char21, w.toNat) := by rw [h]
  rw [decodeChar_eq]
  split
  · exact hword (fields_append w 4 3 (by omega))
  split
  · exact hword (fields_append w 6 5 (by omega))
  split
  · exact hword (charSurrogate_extractLsb' ‹_›)
  split
  · exact hword (fields_append w 12 4 (by omega))
  split
  · exact hword (fields_append w 18 2 (by omega))
  split
  · exact hword (charU4High_extractLsb' ‹_›)
  · rfl

/-- Settles O3: one lemma for each row, and the two facts of every decoded word. -/
theorem everyWordIsDecidedByItsRange : Obligations.EveryWordIsDecidedByItsRange := fun w =>
  ⟨fun h => ⟨_, _, decodeChar_eq_putcU1 h⟩, fun h => ⟨_, _, decodeChar_eq_putcU2 h⟩,
    fun h => ⟨_, decodeChar_eq_illegalSurrogate h⟩, fun h => ⟨_, _, decodeChar_eq_putcU3 h⟩,
    fun h => ⟨_, _, decodeChar_eq_putcU4Low h⟩, fun h => ⟨_, decodeChar_eq_putcU4High h⟩,
    decodeChar_eq_illegalAbove, decodeChar_wellFormed w, encode_decodeChar w⟩

/-! ## Decoding an encoded instruction (R51 to R58) -/

/-- A word of two fields side by side gives each of them back. -/
theorem extractLsb'_of_toNat {w : Char21} {n k : Nat} {hi : BitVec n} {lo : BitVec k}
    (h : w.toNat = 2 ^ k * hi.toNat + lo.toNat) : w.extractLsb' k n = hi ∧ w.extractLsb' 0 k = lo := by
  constructor
  · apply BitVec.eq_of_toNat_eq
    rw [BitVec.extractLsb'_toNat, h, Nat.shiftRight_eq_div_pow, Nat.mul_add_div (Nat.two_pow_pos k),
      Nat.div_eq_of_lt lo.isLt, Nat.add_zero, Nat.mod_eq_of_lt hi.isLt]
  · apply BitVec.eq_of_toNat_eq
    rw [BitVec.extractLsb'_toNat, h, Nat.shiftRight_zero, Nat.mul_add_mod, Nat.mod_eq_of_lt lo.isLt]

theorem decodeChar_charU1 (u : BitVec 3) (l : Nib) : decodeChar (charU1 u l) = .putcU1 u l := by
  obtain ⟨-, -, hrange⟩ := RowMatch.putcU1 u l rfl _ _ rfl
  obtain ⟨hu, hl⟩ := extractLsb'_of_toNat (hi := u) (lo := l) (charU1_toNat u l)
  rw [decodeChar_eq_putcU1 hrange, hu, hl]

theorem decodeChar_charU2 {top : BitVec 5} {low : BitVec 6} (h : (Instr.putcU2 top low).wellFormed = true) :
    decodeChar (charU2 top low) = .putcU2 top low := by
  obtain ⟨-, -, hrange⟩ := RowMatch.putcU2 top low h _ _ rfl
  obtain ⟨htop, hlow⟩ := extractLsb'_of_toNat (hi := top) (lo := low) (charU2_toNat top low)
  rw [decodeChar_eq_putcU2 hrange, htop, hlow]

theorem decodeChar_charSurrogate (low : BitVec 11) : decodeChar (charSurrogate low) = .illegalSurrogate low := by
  obtain ⟨-, -, hrange⟩ := RowMatch.illegalSurrogate low rfl _ _ rfl
  obtain ⟨-, hlow⟩ := extractLsb'_of_toNat (hi := 0b0000011011#10) (lo := low) (charSurrogate_toNat low)
  rw [decodeChar_eq_illegalSurrogate hrange, hlow]

theorem decodeChar_charU3 {top : BitVec 4} {low : BitVec 12} (h : (Instr.putcU3 top low).wellFormed = true) :
    decodeChar (charU3 top low) = .putcU3 top low := by
  obtain ⟨-, -, hrange⟩ := RowMatch.putcU3 top low h _ _ rfl
  obtain ⟨htop, hlow⟩ := extractLsb'_of_toNat (hi := top) (lo := low) (charU3_toNat top low)
  rw [decodeChar_eq_putcU3 hrange, htop, hlow]

theorem decodeChar_charU4Low {top : BitVec 2} {low : BitVec 18} (h : (Instr.putcU4Low top low).wellFormed = true) :
    decodeChar (charU4Low top low) = .putcU4Low top low := by
  obtain ⟨-, -, hrange⟩ := RowMatch.putcU4Low top low h _ _ rfl
  obtain ⟨htop, hlow⟩ := extractLsb'_of_toNat (hi := top) (lo := low) (charU4Low_toNat top low)
  rw [decodeChar_eq_putcU4Low hrange, htop, hlow]

theorem decodeChar_charU4High (low : BitVec 16) : decodeChar (charU4High low) = .putcU4High low := by
  obtain ⟨-, -, hrange⟩ := RowMatch.putcU4High low rfl _ _ rfl
  obtain ⟨-, hlow⟩ := extractLsb'_of_toNat (hi := 0b10000#5) (lo := low) (charU4High_toNat low)
  rw [decodeChar_eq_putcU4High hrange, hlow]

/-- A word above the scalar values is its own operand. -/
theorem decodeChar_illegalAbove {word : Char21} (h : (Instr.illegalAbove word).wellFormed = true) :
    decodeChar word = .illegalAbove word := by
  obtain ⟨-, hrange⟩ := RowMatch.illegalAbove word h _ _ rfl
  exact decodeChar_eq_illegalAbove hrange

theorem isStartOffset_iff (off : Offset) : isStartOffset off = true ↔ off.toNat / 8 % 8 = 0 := by
  rw [isStartOffset, beq_iff_eq, ← BitVec.toNat_inj, BitVec.extractLsb'_toNat, Nat.shiftRight_eq_div_pow]
  rfl

/-- The row address of a start offset holds the pixel row in bits 5..3 and the start offset in the others (R54). -/
theorem decodeOff10_rowAddr {off : Offset} (h : isStartOffset off = true) (i : Fin 8) :
    decodeOff10 (off + BitVec.ofNat 10 (8 * i.val)) = .grAddr off i := by
  rw [isStartOffset_iff] at h
  have hoff := off.isLt
  have hi := i.isLt
  have haddr : (off + BitVec.ofNat 10 (8 * i.val)).toNat = off.toNat + 8 * i.val := by
    rw [BitVec.toNat_add, BitVec.toNat_ofNat]
    omega
  rw [decodeOff10, Instr.grAddr.injEq]
  constructor
  · apply BitVec.eq_of_toNat_eq
    simp only [append_toNat', BitVec.extractLsb'_toNat, Nat.shiftRight_eq_div_pow, haddr, BitVec.toNat_ofNat]
    omega
  · apply Fin.ext
    rw [BitVec.extractLsb'_toNat, haddr, Nat.shiftRight_eq_div_pow, Fin.val_ofNat]
    omega

theorem decode_char21 (c : Char21) : decode .char21 c.toNat = .ok (decodeChar c) := by
  simp [decode, Format.width, c.isLt]

theorem decode_sel8 (sel : Byte) : decode .sel8 sel.toNat = .ok (.giSplit sel) := by
  simp [decode, Format.width, sel.isLt]

theorem decode_off10 (a : Offset) : decode .off10 a.toNat = .ok (decodeOff10 a) := by
  simp [decode, Format.width, a.isLt]

theorem decode_atlas8 (b : Byte) (par : Bool) : decode (.atlas8 par) b.toNat = .ok (.grNib b par) := by
  simp [decode, Format.width, b.isLt]

theorem decode_nib4 (n : Nib) (j : Fin 4) : decode (.nib4 j) n.toNat = .ok (.bcTest n j) := by
  simp [decode, Format.width, n.isLt]

/-- Settles O2, instruction by instruction: a word fits its format, and its row gives the fields back. -/
theorem decodeOfEncodeIsTheInstruction : Obligations.DecodeOfEncodeIsTheInstruction := by
  intro i f w hwf he
  cases i with
  | putcU1 u l => cases he; rw [decode_char21, decodeChar_charU1]
  | putcU2 top low => cases he; rw [decode_char21, decodeChar_charU2 hwf]
  | illegalSurrogate low => cases he; rw [decode_char21, decodeChar_charSurrogate]
  | putcU3 top low => cases he; rw [decode_char21, decodeChar_charU3 hwf]
  | putcU4Low top low => cases he; rw [decode_char21, decodeChar_charU4Low hwf]
  | putcU4High low => cases he; rw [decode_char21, decodeChar_charU4High]
  | illegalAbove word => cases he; rw [decode_char21, decodeChar_illegalAbove hwf]
  | giSplit sel => cases he; exact decode_sel8 sel
  | grAddr off i => cases he; rw [decode_off10, decodeOff10_rowAddr hwf]
  | grNib b par => cases he; exact decode_atlas8 b par
  | bcTest n j => cases he; exact decode_nib4 n j
  | init x0 y0 | draw str | getpos | giSel c | giDomain c | giIndex upper lower | giPar lower | giBounds off
  | giLookup c | grLoad a | grRaster off par | bcRect ox oy i j | bcFill x y w h | bcBlit bm ox oy | caAdvance =>
    cases he

/-- Settles O1: the decoder, run on each word. -/
theorem decoderReadsWrittenOutWords : Obligations.DecoderReadsWrittenOutWords :=
  ⟨rfl, rfl, rfl, rfl, rfl, rfl, rfl, rfl, rfl, rfl, rfl⟩

/-! ## Words that are no scalar values (R58) -/

section NonScalar

variable {w : Char21}

theorem isScalar_eq_false_iff :
    isScalar w = false ↔ (0xD800 ≤ w.toNat ∧ w.toNat ≤ 0xDFFF) ∨ 0x110000 ≤ w.toNat := by
  rw [← Bool.not_eq_true, isScalar_iff]
  omega

variable (h : isScalar w = false) (s : State)

include h

theorem exec_giSel_refused : exec (.giSel w) s = .refused .notScalarValue := by
  simp [exec, execGiSel, h]

theorem exec_giDomain_refused : exec (.giDomain w) s = .refused .notScalarValue := by
  simp [exec, execGiDomain, h]

theorem exec_giLookup_refused : exec (.giLookup w) s = .refused .notScalarValue := by
  simp [exec, execGiLookup, h]

/-- One such word in its string is enough for a DRAW to be refused (R98). -/
theorem exec_draw_refused {str : List Char21} (hw : w ∈ str) (hidle : Idle s) :
    exec (.draw str) s = .refused .notScalarValue := by
  have hall : ¬ str.all isScalar = true := fun hall => by simp [List.all_eq_true.mp hall w hw] at h
  rw [exec, execDraw, busy_eq_false_iff.mpr hidle, if_neg Bool.false_ne_true, if_neg hall]

end NonScalar

/-- Settles O47: each operation looks at `isScalar` of its word before anything else. -/
theorem nonScalarWordsAreRefused : Obligations.NonScalarWordsAreRefused := by
  refine fun s => ⟨fun _ => rfl, fun _ => rfl, fun w hw => ?_⟩
  have h := isScalar_eq_false_iff.mpr hw
  exact ⟨exec_decodeChar_refused h s, exec_giSel_refused h s, exec_giDomain_refused h s, exec_giLookup_refused h s,
    fun hidle before after => exec_draw_refused h s (by simp) hidle⟩

/-! ## The empty string (R98) -/

/-- Settles O56: the program counter starts at the end of the string, and an idle block's call is none. -/
theorem drawOfTheEmptyStringReturnsOk : Obligations.DrawOfTheEmptyStringReturnsOk := by
  intro s hidle
  have hend := step_of_end (s := { s with call := some [], pc := 0, tr := Transient.empty }) hidle.2 rfl rfl
  exact ⟨_, exec_draw_of_idle hidle (by simp), by rw [hend, finish, hidle.1]⟩

end Sys2Proof.Machine

end

/-! # The glyph indexer: its five pure results, its two checks, and the lookup -/

section

namespace Sys2Proof.Machine

open Sys2Proof.Safety

/-! ## The operand functions as words of their width (R67, R69, R70) -/

theorem selector_eq_ofNat (c : Char21) : selector c = BitVec.ofNat 8 (leadByte c.toNat) :=
  (BitVec.toNat_eq_nat.mp (selector_toNat c)).2

theorem upperOf_eq_ofNat (sel : Byte) : upperOf sel = BitVec.ofNat 4 (sel.toNat / 16) :=
  (BitVec.toNat_eq_nat.mp (upperOf_toNat sel)).2

theorem lowerOf_eq_ofNat (sel : Byte) : lowerOf sel = BitVec.ofNat 4 (sel.toNat % 16) :=
  (BitVec.toNat_eq_nat.mp (lowerOf_toNat sel)).2

theorem startOffsetOf_eq_ofNat (upper lower : Nib) :
    startOffsetOf upper lower = BitVec.ofNat 10 (64 * upper.toNat + lower.toNat / 2) :=
  (BitVec.toNat_eq_nat.mp (startOffsetOf_toNat upper lower)).2

/-- A start offset is its grid row, three zero bits and the byte column, side by side (R54, R70). -/
theorem startOffsetOf_eq_append (upper lower : Nib) :
    startOffsetOf upper lower = upper ++ 0#3 ++ lower.extractLsb' 1 3 := by
  apply BitVec.eq_of_toNat_eq
  have hupper := upper.isLt
  have hlower := lower.isLt
  simp only [startOffsetOf_toNat, append_toNat', BitVec.extractLsb'_toNat, Nat.shiftRight_eq_div_pow,
    BitVec.toNat_ofNat]
  omega

/-! ## The pure operations -/

/-- Settles O16. -/
theorem selGivesTheLeadByte : Obligations.SelGivesTheLeadByte := by
  intro s c hc
  rw [← selector_eq_ofNat]
  exact if_pos hc

/-- Settles O18. -/
theorem splitGivesQuotientAndRemainder : Obligations.SplitGivesQuotientAndRemainder := by
  intro s sel
  rw [← upperOf_eq_ofNat, ← lowerOf_eq_ofNat]
  rfl

/-- Settles O19: the value and its fields are both `startOffsetOf`, and the highest row and column give 967. -/
theorem indexConcatenatesItsFields : Obligations.IndexConcatenatesItsFields := by
  intro s upper lower
  rw [← startOffsetOf_eq_ofNat]
  have hupper := upper.isLt
  have hlower := lower.isLt
  exact ⟨rfl, startOffsetOf_eq_append upper lower, by omega⟩

/-- Settles O20. -/
theorem parIsLowerModTwo : Obligations.ParIsLowerModTwo := by
  intro s lower
  rw [← parity_eq]
  rfl

/-! ## The two checks (R68, R72) -/

/-- GI.DOMAIN of a scalar value, by its check. -/
theorem exec_giDomain {c : Char21} (hc : isScalar c = true) (s : State) :
    exec (.giDomain c) s =
      if domainOk s.cfg.policy c then .next (latch { s.tr with ch := some c } s)
      else .next (raised s (.unsupportedCharacter c)) :=
  if_pos hc

/-- Settles O17: the check passes in the first clause and fails in the second. -/
theorem domainPassesAsciiOrByPolicy : Obligations.DomainPassesAsciiOrByPolicy := by
  intro s c hc
  rw [exec_giDomain hc]
  refine ⟨fun hpass => if_pos (domainOk_iff.mpr hpass), fun ⟨hhigh, hreject⟩ => if_neg ?_⟩
  rw [domainOk_iff, hreject]
  rintro (hlow | hpolicy)
  · omega
  · cases hpolicy

/-- Settles O21: the check passes in the first clause; in the second it fails, and the payload is the latched
character. -/
theorem boundsPassesWhenTheLastReadIsInside : Obligations.BoundsPassesWhenTheLastReadIsInside := by
  refine fun s off => ⟨fun hin => if_pos (boundsOk_iff.mpr hin), fun c hch hout => ?_⟩
  have hfails : ¬ boundsOk s.cfg.atlasLen off = true := by
    rw [boundsOk_iff]
    omega
  rw [exec, execGiBounds, if_neg hfails, hch]
  rfl

/-! ## The lookup (R73, R76) -/

/-- GI.LOOKUP of a scalar value that is looked up to an offset and a parity. -/
theorem exec_giLookup_of_some {c : Char21} {s : State} {off : Offset} {par : Bool} (hc : isScalar c = true)
    (h : lookup s.cfg c = some (off, par)) :
    exec (.giLookup c) s = .next (latch (lookupTransient c off par) s) := by
  rw [exec, execGiLookup, if_pos hc, h]

/-- GI.LOOKUP of a scalar value that fails one of the two checks. -/
theorem exec_giLookup_of_none {c : Char21} {s : State} (hc : isScalar c = true) (h : lookup s.cfg c = none) :
    exec (.giLookup c) s = .next (raised s (.unsupportedCharacter c)) := by
  rw [exec, execGiLookup, if_pos hc, h]
  rfl

/-- Settles O23. -/
theorem lookupFindsTheCellOrRaises : Obligations.LookupFindsTheCellOrRaises := by
  intro s c hc
  refine ⟨fun haccepted => ?_, fun hnot => exec_giLookup_of_none hc (lookup_of_not_accepted hnot)⟩
  rw [exec_giLookup_of_some hc (lookup_of_accepted haccepted), lookupTransient, upperOf_eq_ofNat, lowerOf_eq_ofNat,
    selector_toNat, selector_eq_ofNat]
  rfl

/-- A selector is determined by the start address of its cell and its parity. -/
theorem eq_of_cellStart_eq {a b : Nat} (hcell : cellStart a = cellStart b) (hpar : a % 2 = b % 2) : a = b := by
  unfold cellStart at hcell
  omega

theorem leadByte_of_lt {c : Nat} (h : c < 0x80) : leadByte c = c := if_pos h

/-- On the full atlas every character of the domain is accepted (R75). -/
theorem accepted_of_lt {cfg : BlockConfig} {c : Char21} (hfull : cfg.atlasLen.val = 1024) (h : c.toNat < 0x80) :
    Accepted cfg c := by
  have hcell := cellStart_leadByte_le h
  exact ⟨.inl h, by omega⟩

/-- Two accepted characters with the same lookup have the same first code unit. -/
theorem leadByte_eq_of_lookup_eq {cfg : BlockConfig} {c d : Char21} (hc : Accepted cfg c) (hd : Accepted cfg d)
    (h : lookup cfg c = lookup cfg d) : leadByte c.toNat = leadByte d.toNat := by
  rw [lookup_of_accepted hc, lookup_of_accepted hd, Option.some.injEq, Prod.mk.injEq, decide_eq_decide] at h
  obtain ⟨hoff, hpar⟩ := h
  have hcell := congrArg BitVec.toNat hoff
  rw [toNat_ofNat_cellStart (leadByte_lt c), toNat_ofNat_cellStart (leadByte_lt d)] at hcell
  exact eq_of_cellStart_eq hcell (by omega)

/-- Under LEADING_BYTE the lookup reads nothing of a character but its first code unit. -/
theorem lookup_eq_of_leadByte_eq {cfg : BlockConfig} {c d : Char21} (hpolicy : cfg.policy = .leadingByte)
    (h : leadByte c.toNat = leadByte d.toNat) : lookup cfg c = lookup cfg d := by
  have haccepted (c : Char21) : Accepted cfg c ↔ cellStart (leadByte c.toNat) + 57 ≤ cfg.atlasLen.val :=
    and_iff_right (.inr hpolicy)
  by_cases hc : Accepted cfg c
  · have hd : Accepted cfg d := by rwa [haccepted, ← h, ← haccepted]
    rw [lookup_of_accepted hc, lookup_of_accepted hd, h]
  · have hd : ¬ Accepted cfg d := by rwa [haccepted, ← h, ← haccepted]
    rw [lookup_of_not_accepted hc, lookup_of_not_accepted hd]

/-- Settles O25: below U+0080 a character is its own first code unit. -/
theorem lookupIsInjectiveOnTheDomain : Obligations.LookupIsInjectiveOnTheDomain := by
  refine ⟨fun cfg c d hfull hc hd h => ?_, fun cfg c d => lookup_eq_of_leadByte_eq⟩
  have hlead := leadByte_eq_of_lookup_eq (accepted_of_lt hfull hc) (accepted_of_lt hfull hd) h
  rw [leadByte_of_lt hc, leadByte_of_lt hd] at hlead
  exact BitVec.eq_of_toNat_eq hlead

end Sys2Proof.Machine

end

/-! # The glyph rasterizer: the row address, one byte and one nibble of a row, and the bitmap of any offset -/

section

namespace Sys2Proof.Machine

/-! ## The row address (R54, R77) -/

theorem rowAddr_eq (off : Offset) (i : Fin 8) : rowAddr off i = off.toNat + 8 * i.val := by
  rw [rowAddr, Config.rowBytes_eq, Nat.mul_comm]

/-- The address GR.ADDR gives is exact where ten bits hold the sum. -/
theorem rowAddrOf_toNat {off : Offset} {i : Fin 8} (h : off.toNat + 8 * i.val < 1024) :
    (rowAddrOf off i).toNat = off.toNat + 8 * i.val := by
  rw [← rowAddr_eq] at h ⊢
  rw [rowAddrOf, if_pos h, BitVec.toNat_ofNat, Nat.mod_eq_of_lt h]

/-- The row number stands in bits 5..3, which a start offset leaves zero: the sum has no carry (R54). -/
theorem append_row_toNat (upper : Nib) (colbyte : BitVec 3) (i : Fin 8) :
    (upper ++ BitVec.ofNat 3 i.val ++ colbyte).toNat = (upper ++ 0#3 ++ colbyte).toNat + 8 * i.val := by
  have hi := i.isLt
  simp only [append_toNat', BitVec.toNat_ofNat]
  omega

/-- The row address of a start offset is the start offset with the row number in its place. -/
theorem rowAddrOf_append (upper : Nib) (colbyte : BitVec 3) (i : Fin 8) :
    rowAddrOf (upper ++ 0#3 ++ colbyte) i = upper ++ BitVec.ofNat 3 i.val ++ colbyte := by
  have hsum := append_row_toNat upper colbyte i
  have hfits : (upper ++ 0#3 ++ colbyte).toNat + 8 * i.val < 1024 := by
    rw [← hsum]
    exact BitVec.isLt _
  apply BitVec.eq_of_toNat_eq
  rw [rowAddrOf_toNat hfits, hsum]

/-- Settles O26: the address latched is `rowAddrOf`, for an offset of any form. -/
theorem addrInsertsTheRow : Obligations.AddrInsertsTheRow := by
  refine ⟨fun s upper colbyte i => ⟨?_, append_row_toNat upper colbyte i⟩,
    fun s off i => ⟨rowAddrOf off i, rfl, rowAddrOf_toNat⟩⟩
  rw [← rowAddrOf_append]
  rfl

/-! ## The bytes and nibbles of a row (R78, R79) -/

/-- Settles O27: the two clauses are the two sides of the check. -/
theorem loadReadsInsideTheAtlasOnly : Obligations.LoadReadsInsideTheAtlasOnly :=
  fun _ _ => ⟨fun hin => if_pos hin, fun hout => if_neg (Nat.not_lt.mpr hout)⟩

theorem nibble_even (b : Byte) : nibble b false = BitVec.ofNat 4 (b.toNat / 16) := by
  apply BitVec.eq_of_toNat_eq
  simp only [nibble, Bool.false_eq_true, if_false, BitVec.extractLsb'_toNat, Nat.shiftRight_eq_div_pow,
    BitVec.toNat_ofNat]

theorem nibble_odd (b : Byte) : nibble b true = BitVec.ofNat 4 (b.toNat % 16) := by
  apply BitVec.eq_of_toNat_eq
  simp only [nibble, if_true, BitVec.extractLsb'_toNat, Nat.shiftRight_zero, BitVec.toNat_ofNat]
  omega

/-- Settles O28. -/
theorem nibTakesTheNibbleOfTheParity : Obligations.NibTakesTheNibbleOfTheParity := by
  intro s b
  rw [← nibble_even, ← nibble_odd]
  exact ⟨rfl, rfl⟩

/-! ## The bitmap of any offset (R80) -/

/-- Each row of a bitmap is the nibble of its atlas byte. -/
theorem raster_getElem (rd : Nat → Byte) (off : Offset) (par : Bool) (i : Fin 8) :
    (raster rd off par)[i] = nibble (rd (off.toNat + 8 * i.val)) par := by
  rw [← rowAddr_eq, raster, Fin.getElem_fin, Vector.getElem_ofFn]

/-- The nibble of a byte begins at bit 0 for odd parity and at bit 4 for even parity. -/
theorem nibble_eq_extractLsb' (b : Byte) (par : Bool) : nibble b par = b.extractLsb' (if par then 0 else 4) 4 := by
  cases par <;> rfl

/-- Settles O30: the bounds check passes. -/
theorem rasterTakesOneNibbleOfEachByte : Obligations.RasterTakesOneNibbleOfEachByte := by
  intro s off par hin
  refine ⟨_, exec_grRaster_of_boundsOk (boundsOk_iff.mpr hin) par, fun i => ?_⟩
  rw [raster_getElem, nibble_eq_extractLsb']

/-- Settles O31: the bounds check fails. -/
theorem rasterNeedsTheBoundsCheck : Obligations.RasterNeedsTheBoundsCheck := by
  intro s off par hout
  exact if_neg (mt boundsOk_iff.mp (by omega))

end Sys2Proof.Machine

end

/-! # The blitter controller: one pixel, one fill, the blit, and a DRAW whose fills fail -/

section

namespace Sys2Proof.Machine

open Sys2Proof.Safety

/-! ## One pixel (R84, R85) -/

/-- A pixel test reads the bit of weight 2^(3-j). -/
theorem testBit_eq_decide (n : Nib) (j : Fin 4) : testBit n j = decide (n.toNat / 2 ^ (3 - j.val) % 2 = 1) := by
  rw [testBit, Config.width_eq, BitVec.getLsbD, Nat.testBit_eq_decide_div_mod_eq, Nat.sub_right_comm]

/-- Settles O32: the bit latched is `testBit`. -/
theorem testReadsTheBitFromTheLeft : Obligations.TestReadsTheBitFromTheLeft := by
  intro s n j
  rw [← testBit_eq_decide]
  rfl

/-- Settles O33: a coordinate is its own narrowing, and both sums are taken modulo 2^COORD_W. -/
theorem rectIsTheMagnifiedPixel : Obligations.RectIsTheMagnifiedPixel := by
  intro s ox oy i j hx hy
  rw [← pixelRect_eq]
  simp only [exec, execBcRect, narrow_of_inWidth hx, narrow_of_inWidth hy, latch]

/-! ## One fill (R86) -/

/-- BC.FILL with no fill outstanding: the end of one fill with its rectangle latched, and what that end brings. -/
theorem exec_bcFill {s t : State} {x y : Coord} {w h : Nat} {f : FillEnd} (hw : s.waiting = none)
    (hx : InWidth s.cfg x) (hy : InWidth s.cfg y)
    (hf : fill ⟨x, y, w, h⟩ (latch { s.tr with rect := some ⟨x, y, w, h⟩ } s) = (f, t)) :
    exec (.bcFill x y w h) s = .next (afterFills id (f, t)) := by
  rw [← hf]
  simp only [exec, execBcFill, hw, fillRect_of_inWidth hx hy]
  rfl

/-- Settles O36: the two answers of one fill. -/
theorem fillIssuesOneCommand : Obligations.FillIssuesOneCommand := fun _ _ _ _ _ _ hw hx hy =>
  ⟨fun hok => (exec_bcFill hw hx hy (fill_of_ok _ hok)).trans rfl,
    fun _ herr => (exec_bcFill hw hx hy (fill_of_err _ herr)).trans rfl⟩

/-! ## The blit (R87, R88) -/

/-- BC.BLIT with no fill outstanding: the end of the loop with bitmap and origin latched, and what that end brings. -/
theorem exec_bcBlit {s t : State} {bm : Bitmap} {ox oy : Coord} {f : FillEnd} (hw : s.waiting = none)
    (hx : InWidth s.cfg ox) (hy : InWidth s.cfg oy)
    (hf : blitFrom bm ox oy scan (latch { s.tr with bm := some bm, ox := some ox, oy := some oy } s) = (f, t)) :
    exec (.bcBlit bm ox oy) s = .next (afterFills id (f, t)) := by
  rw [← hf]
  simp only [exec, execBcBlit, hw, narrow_of_inWidth hx, narrow_of_inWidth hy]
  rfl

/-- MASK32 holds the pixels in scan order from its top bit down (R57). -/
theorem mask32_getLsbD (bm : Bitmap) {k : Nat} (hk : k < 32) :
    (mask32 bm).getLsbD (31 - k) = bitmapOn bm (k / 4) (k % 4) := by
  simp only [mask32, BitVec.getLsbD_append, bitmapOn]
  interval_cases k <;> simp

/-- A bitmap has as many set pixels as its MASK32 has set bits. -/
theorem popcount_eq (bm : Bitmap) : popcount bm = (List.range 32).countP fun k => bitmapOn bm (k / 4) (k % 4) := by
  have hrev : (List.range 32).reverse = (List.range 32).map (31 - ·) := by decide
  calc popcount bm = (List.range 32).reverse.countP fun k => (mask32 bm).getLsbD k := List.countP_reverse.symm
    _ = (List.range 32).countP fun k => (mask32 bm).getLsbD (31 - k) := by rw [hrev, List.countP_map]; rfl
    _ = (List.range 32).countP fun k => bitmapOn bm (k / 4) (k % 4) :=
      List.countP_congr fun k hk => by rw [mask32_getLsbD bm (List.mem_range.mp hk)]

/-- A set of pixels makes one fill for each of them. -/
theorem fillsOf_length (cfg : BlockConfig) (on : Nat → Nat → Bool) (ox oy : Coord) :
    (fillsOf cfg on ox oy).length = (List.range 32).countP fun k => on (k / 4) (k % 4) := by
  rw [fillsOf, List.length_filterMap_eq_countP]
  congr 1
  funext k
  cases on (k / 4) (k % 4) <;> rfl

/-- Settles O37: the loop over the whole scan, and the pixels counted on both sides. -/
theorem blitFillsEverySetPixelInOrder : Obligations.BlitFillsEverySetPixelInOrder := by
  intro s bm ox oy rest hw hx hy ha
  refine ⟨?_, by rw [fillsOf_length, popcount_eq]⟩
  rw [← pixelCmds_scan] at ha ⊢
  exact (exec_bcBlit hw hx hy (blitFrom_of_ok bm ox oy scan ha)).trans rfl

/-- Settles O38: the loop leaves at the failed fill, and the raise follows. -/
theorem blitStopsAtTheFirstFailure : Obligations.BlitStopsAtTheFirstFailure := by
  intro s bm ox oy pre post bad e rest hw hx hy hf ha
  rw [← pixelCmds_scan] at hf
  exact (exec_bcBlit hw hx hy (blitFrom_of_err bm ox oy scan hf ha)).trans rfl

/-! ## The frame of the blitter (R92) -/

/-- What BC.FILL and BC.BLIT can do: fills that leave the bitmap `bm` latched, and after a failed one the raise (R86,
R88, R114). -/
def FillsThenMayRaise (bm : Option Bitmap) (s t : State) : Prop :=
  ∃ u : State, SameButFills s u ∧ (∃ new, u.trace = s.trace ++ new) ∧ u.tr.bm = bm ∧
    (t = u ∨ ∃ e, t = raise (.surfaceWriteFailure e) u)

/-- Fills and what follows them, when nothing follows success. -/
theorem afterFills_id_cases (f : FillEnd) (u : State) :
    afterFills id (f, u) = u ∨ ∃ e, afterFills id (f, u) = raise (.surfaceWriteFailure e) u := by
  cases f with
  | done => exact .inl rfl
  | failed e => exact .inr ⟨e, rfl⟩
  | silent => exact .inl rfl

theorem exec_bcFill_cases {x y : Coord} {w h : Nat} {s t : State} (he : exec (.bcFill x y w h) s = .next t) :
    FillsThenMayRaise s.tr.bm s t := by
  simp only [exec, execBcFill] at he
  split at he
  · cases he
  · cases he
    generalize hf : fill _ _ = g
    obtain ⟨f, u⟩ := g
    obtain ⟨hs, htr, hi⟩ := fill_spec hf
    obtain ⟨new, htrace, -⟩ := hi.trace_append
    exact ⟨u, (SameButFills.latch s _).trans hs, ⟨new, htrace⟩, by rw [htr]; rfl, afterFills_id_cases f u⟩

theorem exec_bcBlit_cases {bm : Bitmap} {ox oy : Coord} {s t : State} (he : exec (.bcBlit bm ox oy) s = .next t) :
    FillsThenMayRaise (some bm) s t := by
  simp only [exec, execBcBlit] at he
  split at he
  · cases he
  · cases he
    generalize hf : blitFrom bm ox oy scan _ = g
    obtain ⟨f, u⟩ := g
    obtain ⟨hs, hi⟩ := blitFrom_spec _ _ _ _ hf
    obtain ⟨new, htrace, -⟩ := hi.trace_append
    exact ⟨u, (SameButFills.latch s _).trans hs, ⟨new, htrace⟩, blitFrom_bm _ _ _ _ hf, afterFills_id_cases f u⟩

/-- Settles O40: the fills touch no register, and the raise ends the call. -/
theorem blitterWritesNoRegister : Obligations.BlitterWritesNoRegister := by
  intro i s t hi he
  have hfills : ∃ bm, FillsThenMayRaise bm s t ∧ (∀ x y w h, i = .bcFill x y w h → bm = s.tr.bm) ∧
      ∀ b ox oy, i = .bcBlit b ox oy → bm = some b := by
    obtain ⟨x, y, w, h, rfl⟩ | ⟨bm, ox, oy, rfl⟩ := hi
    · exact ⟨s.tr.bm, exec_bcFill_cases he, fun _ _ _ _ _ => rfl, by simp⟩
    · exact ⟨some bm, exec_bcBlit_cases he, by simp, fun b _ _ hi => by cases hi; rfl⟩
  obtain ⟨bm, ⟨u, hs, htrace, hbm, ht⟩, hfill, hblit⟩ := hfills
  obtain rfl | ⟨e, rfl⟩ := ht
  · exact ⟨hs.cx, hs.cy, hs.initialised, hs.cfg, hs.atlas, hs.requests, hs.direct, htrace,
      .inl ⟨hs.call, hs.pc, hs.replies, fun x y w h h' => hbm.trans (hfill x y w h h'),
        fun b ox oy h' => hbm.trans (hblit b ox oy h')⟩⟩
  · exact ⟨hs.cx, hs.cy, hs.initialised, hs.cfg, hs.atlas, hs.requests, hs.direct, htrace,
      .inr ⟨rfl, rfl, e, by rw [raise_replies, hs.replies]⟩⟩

/-! ## A DRAW whose fills fail (R88, R98, R111) -/

/-- The step of a DRAW at an accepted character one of whose fills is answered Err. -/
theorem step_of_err {s : State} {str : List Char21} {c : Char21} {pre post : List FillCmd} {bad : FillCmd}
    {e : SurfErr} {rest : List Answer} (hw : s.waiting = none) (hc : s.call = some str) (hg : str[s.pc]? = some c)
    (hs : isScalar c = true) (hA : Accepted s.cfg c)
    (hf : glyphFills s.cfg s.atlas (leadByte c.toNat) s.cx s.cy = pre ++ bad :: post)
    (ha : s.answers = List.replicate pre.length .ok ++ .err e :: rest) :
    step s = .next (raised (filledUntil s pre bad e rest) (.surfaceWriteFailure e)) := by
  rw [step_of_char hw hc hg, exec_decodeChar hs, putc_of_scalar hs hw, render_of_err hA hf ha]

/-- A stretch of accepted characters of a DRAW in progress and then a failing one: the run ends there with its raise. -/
theorem run_of_ok_then_err {s : State} {str before after : List Char21} {c : Char21} {pre post : List FillCmd}
    {bad : FillCmd} {e : SurfErr} {rest : List Answer} (hw : s.waiting = none) (hc : s.call = some str)
    (ht : s.tr = Transient.empty) (hd : str.drop s.pc = before ++ c :: after) (hx : InWidth s.cfg s.cx)
    (hbefore : ∀ d ∈ before, isScalar d = true ∧ Accepted s.cfg d) (hs : isScalar c = true) (hA : Accepted s.cfg c)
    (hf : glyphFills s.cfg s.atlas (leadByte c.toNat) (moved s.cfg s.cx (before.length * (4 * s.cfg.scale))) s.cy =
      pre ++ bad :: post)
    (ha : s.answers =
      List.replicate ((textFills s.cfg s.atlas before s.cx s.cy).length + pre.length) .ok ++ .err e :: rest) :
    run (before.length + 1) s =
      .next (raised { filledUntil s (textFills s.cfg s.atlas before s.cx s.cy ++ pre) bad e rest with
                      cx := moved s.cfg s.cx (before.length * (4 * s.cfg.scale)) } (.surfaceWriteFailure e)) := by
  have hg : str[s.pc + before.length]? = some c := by rw [← List.getElem?_drop, hd]; simp
  rw [List.replicate_add, List.append_assoc] at ha
  rw [run_of_ok 1 before hw hc ht ⟨c :: after, hd⟩ hx hbefore ha]
  refine Eq.trans (run_succ 0 (step_of_err hw hc hg hs hA hf rfl)) ?_
  simp [raised, filledUntil, filled, answeredOk]

/-- Settles O59: the DRAW starts at the first character of its string. -/
theorem drawStopsAtAFailedFill : Obligations.DrawStopsAtAFailedFill := by
  intro s before after c pre post bad e rest hidle hx hbefore hs hafter hA hf ha
  have hscalar : ∀ d ∈ before ++ c :: after, isScalar d = true :=
    List.forall_mem_append.mpr ⟨fun d hd => (hbefore d hd).1, List.forall_mem_cons.mpr ⟨hs, hafter⟩⟩
  exact ⟨_, exec_draw_of_idle hidle hscalar, run_of_ok_then_err hidle.2 rfl rfl rfl hx hbefore hs hA hf ha⟩

end Sys2Proof.Machine

end

/-! # The cursor and the render call: INIT, GETPOS and the advance, one PUTC, one DRAW, and two DRAWs as one -/

section

namespace Sys2Proof.Machine

open Sys2Proof.Safety

/-! ## The host operations and the advance (R95, R96, R100) -/

/-- Settles O41: a coordinate is its own narrowing, and the two ways the cursor can go without an INIT leave CY and the
bit. -/
theorem initWritesTheCursor : Obligations.InitWritesTheCursor := by
  refine ⟨fun s x0 y0 hidle hx hy => ?_, fun i s t h hne => ?_⟩
  · rw [exec_init_of_idle hidle, narrow_of_inWidth hx, narrow_of_inWidth hy]
  · obtain ⟨hb, -, hy⟩ | ⟨-, hb, -, hy⟩ | ⟨x, y, hi, -, -⟩ := (exec_effect h).cursor
    · exact absurd hne (by simp [hb, hy])
    · exact absurd hne (by simp [hb, hy])
    · exact ⟨x, y, hi⟩

/-- Settles O42. -/
theorem getposReturnsTheCursor : Obligations.GetposReturnsTheCursor := fun _ hidle => exec_getpos_of_idle hidle

/-- Settles O43: the sum CA.ADVANCE takes is the one of R90. -/
theorem advanceMovesRightByTheCellWidth : Obligations.AdvanceMovesRightByTheCellWidth := by
  intro s hw
  simp only [exec, execCaAdvance, hw, Option.isSome_none, Bool.false_eq_true, if_false, advance, advanceX_eq]

/-! ## PUTC with every fill answered Ok (R52, R59, R97) -/

/-- PUTC of a character whose first code unit is `sel`, that the domain check passes and whose cell is in the atlas. -/
theorem putc_of_ok {s : State} {c : Char21} {sel : Nat} {rest : List Answer} (hs : isScalar c = true)
    (hsel : leadByte c.toNat = sel) (hdomain : c.toNat < 0x80 ∨ s.cfg.policy = .leadingByte) (hw : s.waiting = none)
    (hcell : cellStart sel + 57 ≤ s.cfg.atlasLen.val)
    (ha : s.answers = List.replicate (glyphFills s.cfg s.atlas sel s.cx s.cy).length .ok ++ rest) :
    putc c s = .next (afterPutc s (glyphFills s.cfg s.atlas sel s.cx s.cy) rest) := by
  subst hsel
  rw [putc_of_scalar hs hw, render_of_ok ⟨hdomain, hcell⟩ ha]

theorem charU1_lt (u : BitVec 3) (l : Nib) : (charU1 u l).toNat < 0x80 := by
  have hu := u.isLt
  have hl := l.isLt
  rw [charU1_toNat]
  omega

theorem leadByte_charU1 (u : BitVec 3) (l : Nib) : leadByte (charU1 u l).toNat = 16 * u.toNat + l.toNat := by
  rw [leadByte_of_lt (charU1_lt u l), charU1_toNat]

/-- Settles O48: below U+0080 a character passes the domain check under either policy. -/
theorem putcDrawsAnInDomainCharacter : Obligations.PutcDrawsAnInDomainCharacter :=
  fun _ u l _ hw hcell ha => putc_of_ok (charU1_isScalar u l) (leadByte_charU1 u l) (.inl (charU1_lt u l)) hw hcell ha

theorem leadByte_charU2 {top : BitVec 5} {low : BitVec 6} (h : (Instr.putcU2 top low).wellFormed = true) :
    leadByte (charU2 top low).toNat = 0xC0 + top.toNat := by
  have htop := top.isLt
  have hlow := low.isLt
  simp only [Instr.wellFormed, decide_eq_true_eq] at h
  rw [charU2_toNat, leadByte, if_neg (by omega), if_pos (by omega)]
  omega

theorem leadByte_charU3 {top : BitVec 4} {low : BitVec 12} (h : (Instr.putcU3 top low).wellFormed = true) :
    leadByte (charU3 top low).toNat = 0xE0 + top.toNat := by
  have htop := top.isLt
  have hlow := low.isLt
  simp only [Instr.wellFormed, Bool.and_eq_true, Bool.or_eq_true, decide_eq_true_eq] at h
  rw [charU3_toNat, leadByte, if_neg (by omega), if_neg (by omega), if_pos (by omega)]
  omega

/-- The first code unit of a character from U+10000 on. -/
theorem leadByte_of_ge {c : Nat} (h : 0x10000 ≤ c) : leadByte c = 0xF0 + c / 262144 := by
  rw [leadByte, if_neg (by omega), if_neg (by omega), if_neg (by omega)]

theorem leadByte_charU4Low {top : BitVec 2} {low : BitVec 18} (h : (Instr.putcU4Low top low).wellFormed = true) :
    leadByte (charU4Low top low).toNat = 0xF0 + top.toNat := by
  have hlow := low.isLt
  simp only [Instr.wellFormed, Bool.or_eq_true, decide_eq_true_eq] at h
  rw [charU4Low_toNat, leadByte_of_ge (by omega)]
  omega

theorem leadByte_charU4High (low : BitVec 16) : leadByte (charU4High low).toNat = 0xF4 := by
  have hlow := low.isLt
  rw [charU4High_toNat, leadByte_of_ge (by omega)]
  omega

/-- Settles O49, class by class: the fields of a class give the first code unit. -/
theorem putcDrawsByTheLeadByte : Obligations.PutcDrawsByTheLeadByte := fun _ _ hw hpolicy =>
  ⟨fun top low hwf hcell ha =>
      putc_of_ok (charU2_isScalar top low) (leadByte_charU2 hwf) (.inr hpolicy) hw hcell ha,
    fun _ _ hwf hcell ha => putc_of_ok (charU3_isScalar hwf) (leadByte_charU3 hwf) (.inr hpolicy) hw hcell ha,
    fun _ _ hwf hcell ha => putc_of_ok (charU4Low_isScalar hwf) (leadByte_charU4Low hwf) (.inr hpolicy) hw hcell ha,
    fun low hcell ha => putc_of_ok (charU4High_isScalar low) (leadByte_charU4High low) (.inr hpolicy) hw hcell ha⟩

/-! ## PUTC for any answers (R97, R99, R114, R135) -/

/-- A PUTC runs only while no fill is outstanding (R27). -/
theorem waiting_of_exec_putc {i : Instr} {s t : State} (hp : isPutc i = true) (h : exec i s = .next t) :
    s.waiting = none := by
  cases i with
  | putcU1 u l => exact (putc_next h).2.1
  | putcU2 top low => exact (putc_next h).2.1
  | putcU3 top low => exact (putc_next h).2.1
  | putcU4Low top low => exact (putc_next h).2.1
  | putcU4High low => exact (putc_next h).2.1
  | _ => cases hp

/-- Everything a PUTC can do: its fills, `u` the state after them, and then the advance and the end of its character if
all were answered Ok, an exception, or nothing while one is outstanding. -/
theorem exec_putc_cases {i : Instr} {s t : State} (hp : isPutc i = true) (h : exec i s = .next t) :
    ∃ u, SameButFills s u ∧
      ((Issued 32 s u .done ∧ u.waiting = none ∧ t = charDone (advance u)) ∨
        (u.waiting = none ∧ ∃ x, t = raise x u) ∨ (u.waiting ≠ none ∧ t = u)) := by
  have hw := waiting_of_exec_putc hp h
  cases exec_effect h with
  | latch tr hp' => simp [hp] at hp'
  | exception x => exact ⟨s, SameButFills.refl s, .inr (.inl ⟨hw, x, rfl⟩)⟩
  | filled u _ hs hi =>
    have hu : u.waiting = s.waiting := by
      obtain ⟨-, -, -, -, hu⟩ := hi
      exact hu
    exact ⟨u, hs, .inl ⟨hi, hu.trans hw, if_pos hp⟩⟩
  | failed u e _ hs hi =>
    obtain ⟨-, -, -, -, -, hu⟩ := hi
    exact ⟨u, hs, .inr (.inl ⟨hu.trans hw, _, rfl⟩)⟩
  | silent u _ hs hi =>
    obtain ⟨-, cmd, -, -, -, hu⟩ := hi
    exact ⟨t, hs, .inr (.inr ⟨by simp [hu], rfl⟩)⟩
  | init x0 y0 hi _ | draw str hi _ _ | getpos hi _ | advance hi _ =>
    subst hi
    cases hp

/-- A completed character returns Ok to the host, and inside a DRAW nothing yet (R20, R97). -/
theorem charDone_replies_eq (s : State) :
    (charDone s).replies = if s.call.isSome then s.replies else s.replies ++ [.ok] := by
  cases hc : s.call with
  | none => rw [charDone_outside hc]; rfl
  | some str => rw [charDone_inside hc]; rfl

/-- Settles O53: the fills touch nothing that persists, and only a completed character advances. -/
theorem putcAdvancesExactlyOnSuccess : Obligations.PutcAdvancesExactlyOnSuccess := by
  intro i s t hp h
  obtain ⟨u, hs, ⟨-, hu, rfl⟩ | ⟨hu, x, rfl⟩ | ⟨hu, rfl⟩⟩ := exec_putc_cases hp h
  · simp [hs.cy, hs.initialised, hs.cfg, hs.atlas, hs.requests, hs.direct, hs.cx, hs.call, hs.replies, hu,
      charDone_replies_eq, advanceX_eq]
  · exact ⟨hs.cy, hs.initialised, hs.cfg, hs.atlas, hs.requests, hs.direct,
      .inr (.inl ⟨hs.cx, hu, rfl, x, by rw [raise_replies, hs.replies]⟩)⟩
  · exact ⟨hs.cy, hs.initialised, hs.cfg, hs.atlas, hs.requests, hs.direct,
      .inr (.inr ⟨hs.cx, hu, hs.call, hs.replies⟩)⟩

/-! ## What moves CX in a step (R15, R95, R96, R97, R137) -/

/-- A PUTC that has moved CX has completed its character: all its fills were answered Ok, and the DRAW goes on or the
host gets Ok. -/
theorem exec_putc_of_cx_ne {i : Instr} {s t : State} (hp : isPutc i = true) (h : exec i s = .next t)
    (hne : t.cx ≠ s.cx) :
    t.cx = moved s.cfg s.cx (4 * s.cfg.scale) ∧ t.waiting = none ∧
      (∀ r ∈ t.trace.drop s.trace.length, r.answer = .ok) ∧
      ((∃ str, s.call = some str ∧ t.call = some str ∧ t.pc = s.pc + 1) ∨
        (s.call = none ∧ t.replies = s.replies ++ [.ok])) := by
  obtain ⟨u, hs, ⟨hi, hu, rfl⟩ | ⟨-, x, rfl⟩ | ⟨-, rfl⟩⟩ := exec_putc_cases hp h
  · obtain ⟨new, htr, -, hok, -⟩ := hi
    refine ⟨by simp [advanceX_eq, hs.cfg, hs.cx], by simp [hu], by simpa [htr] using hok, ?_⟩
    cases hc : s.call with
    | none => exact .inr ⟨rfl, by simp [charDone_replies_eq, hs.call, hc, hs.replies]⟩
    | some str =>
      have hcu : (advance u).call = some str := hs.call.trans hc
      exact .inl ⟨str, rfl, by rw [charDone_call, hcu], by simp [charDone_inside hcu, hs.pc]⟩
  · exact absurd hs.cx hne
  · exact absurd hs.cx hne

theorem isDirect_of_isPutc {i : Instr} (hp : isPutc i = true) : i.isDirect = false := by
  cases i with
  | putcU1 _ _ | putcU2 _ _ | putcU3 _ _ | putcU4Low _ _ | putcU4High _ => rfl
  | _ => cases hp

/-- An operation of a sub-unit leaves CX alone (R92). -/
theorem cx_of_exec_direct {i : Instr} {s t : State} (hd : i.isDirect = true) (h : exec i s = .next t) :
    t.cx = s.cx := by
  obtain ⟨-, hx⟩ := onlyInitWritesCyAndTheAdvanceWritesCx i s t h
  by_contra hne
  obtain ⟨x, y, rfl⟩ | rfl | hp := hx hne
  · cases hd
  · cases hd
  · simp [isDirect_of_isPutc hp] at hd

/-- Settles O10, over what a step can be. -/
theorem aStepMovesTheCursorOnlyByInitOrACompletedCharacter :
    Obligations.AStepMovesTheCursorOnlyByInitOrACompletedCharacter := by
  intro s t h hne
  obtain ⟨hw, ⟨str, w, hc, -, he⟩ | ⟨-, -, -, rfl⟩ | ⟨d, -, -, he⟩ | ⟨r, rest, hc, hd, hr, he⟩ | ⟨-, -, -, rfl⟩⟩ :=
    step_cases h
  · obtain ⟨hcx, htw, hok, hend | ⟨hn, -⟩⟩ := exec_putc_of_cx_ne (isPutc_of_exec_decodeChar he) he hne
    · exact .inr ⟨hcx, htw, hok, .inl hend⟩
    · simp [hc] at hn
  · exact absurd rfl hne
  · exact absurd (cx_of_exec_direct d.property he) hne
  · obtain ⟨-, hx⟩ := onlyInitWritesCyAndTheAdvanceWritesCx _ _ _ he
    cases r with
    | init x y => exact .inl ⟨x, y, rest, ⟨hc, hw⟩, hd, hr⟩
    | draw str => simpa [Request.instr, isPutc] using hx hne
    | getpos => simpa [Request.instr, isPutc] using hx hne
    | putc w =>
      obtain ⟨hcx, htw, hok, ⟨str, hsome, -⟩ | ⟨-, hrep⟩⟩ := exec_putc_of_cx_ne (isPutc_of_exec_decodeChar he) he hne
      · simp [hc] at hsome
      · exact .inr ⟨hcx, htw, hok, .inr ⟨hc, hd, ⟨w, rest, hr⟩, hrep⟩⟩
  · exact absurd rfl hne

/-! ## A DRAW whose fills are all answered Ok (R98, R101, R103, R110) -/

/-- The state in which a DRAW of `str` starts on an idle block (R98). -/
def launched (str : List Char21) (s : State) : State := { s with call := some str, pc := 0, tr := Transient.empty }

/-- Settles O57: a run of accepted characters, and the return at the end of the string. -/
theorem drawRendersItsStringInOrder : Obligations.DrawRendersItsStringInOrder := by
  intro s str rest hidle hx hstr ha
  refine ⟨launched str s, exec_draw_of_idle hidle fun c hc => (hstr c hc).1, rfl, rfl, ?_⟩
  rw [run_of_ok (s := launched str s) 1 str hidle.2 rfl rfl ⟨[], (List.append_nil str).symm⟩ hx hstr ha]
  refine Eq.trans (run_succ 0 (step_of_end hidle.2 rfl (Nat.zero_add _))) ?_
  simp [finish, filled, launched, hidle.1]

/-- The step of a DRAW at a character that is not accepted. -/
theorem step_of_not_accepted {s : State} {str : List Char21} {c : Char21} (hw : s.waiting = none)
    (hc : s.call = some str) (hg : str[s.pc]? = some c) (hs : isScalar c = true) (hA : ¬ Accepted s.cfg c) :
    step s = .next (raised s (.unsupportedCharacter c)) := by
  rw [step_of_char hw hc hg, exec_decodeChar hs, putc_of_scalar hs hw, render_of_not_accepted hA, raise_eq_raised]

/-- Settles O58: a run of accepted characters, and the raise at the one after them. -/
theorem drawStopsAtAnUnsupportedCharacter : Obligations.DrawStopsAtAnUnsupportedCharacter := by
  intro s before after c rest hidle hx hbefore hs hafter hA ha
  have hscalar : ∀ d ∈ before ++ c :: after, isScalar d = true :=
    List.forall_mem_append.mpr ⟨fun d hd => (hbefore d hd).1, List.forall_mem_cons.mpr ⟨hs, hafter⟩⟩
  refine ⟨launched (before ++ c :: after) s, exec_draw_of_idle hidle hscalar, ?_⟩
  rw [run_of_ok (s := launched (before ++ c :: after) s) 1 before hidle.2 rfl rfl ⟨c :: after, rfl⟩ hx hbefore ha]
  exact run_succ 0 (step_of_not_accepted (str := before ++ c :: after) hidle.2 rfl (by simp [launched]) hs hA)

/-! ## One DRAW, character by character, for any answers (R20, R98, R135) -/

/-- Nothing is asked of the block beside the DRAW in progress. -/
abbrev NothingPending (s : State) : Prop := s.requests = [] ∧ s.direct = none

/-- On an idle block a DRAW is run to where its steps lead from the launch. -/
theorem drawRun_of_idle {s : State} {str : List Char21} (h : Idle s) (hs : ∀ c ∈ str, isScalar c = true) (n : Nat) :
    drawRun str n s = run n (launched str s) := by
  rw [drawRun, exec_draw_of_idle h hs]
  rfl

/-- A DRAW that runs was given scalar values (R58). -/
theorem forall_isScalar_of_drawRun {s u : State} {str : List Char21} {n : Nat} (h : Idle s)
    (hrun : drawRun str n s = .next u) : ∀ c ∈ str, isScalar c = true := by
  intro c hc
  by_contra hs
  rw [drawRun, exec_draw_refused (Bool.eq_false_iff.mpr hs) s hc h] at hrun
  cases hrun

/-- A DRAW of `str` is between two characters, at the `k`-th, and nothing else is asked of the block. -/
structure Drawing (str : List Char21) (k : Nat) (s : State) : Prop where
  call : s.call = some str
  pc : s.pc = k
  tr : s.tr = Transient.empty
  pending : NothingPending s

theorem drawing_launched (str : List Char21) {s : State} (hs : NothingPending s) : Drawing str 0 (launched str s) :=
  ⟨rfl, rfl, rfl, hs⟩

/-- A PUTC leaves the requests and the direct port alone. -/
theorem nothingPending_of_exec_putc {i : Instr} {s t : State} (hp : isPutc i = true) (h : exec i s = .next t)
    (hs : NothingPending s) : NothingPending t := by
  obtain ⟨-, -, -, -, hrequests, hdirect, -⟩ := putcAdvancesExactlyOnSuccess i s t hp h
  rwa [NothingPending, hrequests, hdirect]

/-- The step of a DRAW at the end of its string. -/
theorem step_at_end {s : State} {str : List Char21} (hw : s.waiting = none) (hc : s.call = some str)
    (hg : str[s.pc]? = none) : step s = .next (finish .ok s) := by
  simp only [step, hw, hc, currentChar, hg]

/-- With nothing else asked of the block a step leaves nothing else to be asked, and a DRAW that is in progress after it
was in progress before it, at the same place or at the one before. -/
theorem step_of_nothingPending {s t : State} (hs : NothingPending s) (h : step s = .next t) :
    NothingPending t ∧ ∀ str, t.call = some str → s.call = some str ∧ (t.pc = s.pc ∨ t.pc = s.pc + 1) := by
  obtain ⟨-, ⟨str, w, hc, -, he⟩ | ⟨-, -, -, rfl⟩ | ⟨d, -, hd, -⟩ | ⟨r, rest, -, -, hr, -⟩ | ⟨-, -, -, rfl⟩⟩ :=
    step_cases h
  · refine ⟨nothingPending_of_exec_putc (isPutc_of_exec_decodeChar he) he hs, fun str' hct => ?_⟩
    obtain ⟨hct', hpc, -⟩ | ⟨hn, -⟩ | ⟨hct', hpc, -⟩ := programCounterNeverGoesBack s t str hc h
    · exact ⟨hc.trans (hct'.symm.trans hct), .inr hpc⟩
    · simp [hct] at hn
    · exact ⟨hc.trans (hct'.symm.trans hct), .inl hpc⟩
  · exact ⟨hs, by simp⟩
  · simp [hs.2] at hd
  · simp [hs.1] at hr
  · exact ⟨hs, fun str hc => ⟨hc, .inl rfl⟩⟩

/-- A step of a DRAW before the end of its string: the next character, the call ended by an exception, or a fill that is
outstanding. -/
theorem step_drawing_cases {str : List Char21} {k : Nat} {s t : State} (hs : Drawing str k s) (hk : k < str.length)
    (h : step s = .next t) :
    (Drawing str (k + 1) t ∧ t.replies = s.replies) ∨
      (Idle t ∧ NothingPending t ∧ ∃ x, t.replies = s.replies ++ [.err x]) ∨ t.waiting ≠ none := by
  obtain ⟨hc, rfl, htr, hpending⟩ := hs
  obtain ⟨hw, -⟩ := step_cases h
  rw [step_of_char hw hc (List.getElem?_eq_getElem hk)] at h
  have hp := isPutc_of_exec_decodeChar h
  have htp := nothingPending_of_exec_putc hp h hpending
  obtain ⟨u, hu, ⟨-, -, rfl⟩ | ⟨huw, x, rfl⟩ | ⟨huw, rfl⟩⟩ := exec_putc_cases hp h
  · have hcu : (advance u).call = some str := hu.call.trans hc
    refine .inl ⟨⟨by rw [charDone_call, hcu], by simp [charDone_inside hcu, hu.pc], charDone_tr _, htp⟩, ?_⟩
    simp [charDone_inside hcu, hu.replies]
  · exact .inr (.inl ⟨⟨rfl, huw⟩, htp, x, by rw [raise_replies, hu.replies]⟩)
  · exact .inr (.inr huw)

/-- An idle block with nothing to do stays as it is for any number of steps. -/
theorem run_of_nothing {s : State} (h : Idle s) (hs : NothingPending s) (n : Nat) : run n s = .next s := by
  induction n with
  | zero => rfl
  | succ n ih => rw [run_succ n (step_of_nothing h hs.2 hs.1), ih]

/-- A run with at least one step makes that step first. -/
theorem exists_step_of_run_succ {s u : State} {n : Nat} (h : run (n + 1) s = .next u) :
    ∃ t, step s = .next t ∧ run n t = .next u := by
  cases hs : step s with
  | next t => exact ⟨t, rfl, by rwa [run_succ n hs] at h⟩
  | fault r => rw [run_succ_fault n hs] at h; cases h
  | refused r => rw [run_succ_refused n hs] at h; cases h

/-- A DRAW run to its end: it has come to the end of its string, at the state `v`, and returned Ok from there, or an
exception has ended it. -/
theorem run_drawing_cases {str : List Char21} (n : Nat) :
    ∀ {k : Nat} {s u : State}, Drawing str k s → k + n = str.length → run (n + 1) s = .next u →
      (∃ v, run n s = .next v ∧ Drawing str str.length v ∧ v.waiting = none ∧ v.replies = s.replies ∧
        u = finish .ok v) ∨
      (u.call = none ∧ ∃ x, u.replies = s.replies ++ [.err x]) := by
  induction n with
  | zero =>
    intro k s u hs hk h
    obtain ⟨t, hstep, ht⟩ := exists_step_of_run_succ h
    cases ht
    obtain ⟨hw, -⟩ := step_cases hstep
    rw [step_of_end hw hs.call (hs.pc.trans hk)] at hstep
    cases hstep
    obtain rfl : k = str.length := hk
    exact .inl ⟨s, rfl, hs, hw, rfl, rfl⟩
  | succ n ih =>
    intro k s u hs hk h
    obtain ⟨t, hstep, ht⟩ := exists_step_of_run_succ h
    obtain ⟨hd, hrep⟩ | ⟨hidle, hpending, x, hrep⟩ | hw := step_drawing_cases hs (by omega) hstep
    · rw [← hrep]
      obtain ⟨v, hv, hrest⟩ | hend := ih hd (by omega) ht
      · exact .inl ⟨v, by rw [run_succ n hstep, hv], hrest⟩
      · exact .inr hend
    · rw [run_of_nothing hidle hpending] at ht
      cases ht
      exact .inr ⟨hidle.1, x, hrep⟩
    · obtain ⟨t', hstep', -⟩ := exists_step_of_run_succ ht
      exact absurd (step_cases hstep').1 hw

/-! ## The place of a DRAW in a longer one (R18, R98, R102) -/

/-- A change of the state that commutes with one fill commutes with the blitter's loop (R87). -/
theorem blitFrom_commutes {g : State → State} (hcfg : ∀ s, (g s).cfg = s.cfg)
    (hfill : ∀ r s, fill r (g s) = Prod.map id g (fill r s))
    (hlatch : ∀ i j r s, latchPixel i j r (g s) = g (latchPixel i j r s)) (bm : Bitmap) (ox oy : Coord)
    (ps : List (Fin 8 × Fin 4)) : ∀ s, blitFrom bm ox oy ps (g s) = Prod.map id g (blitFrom bm ox oy ps s) := by
  induction ps with
  | nil => intro s; rfl
  | cons p ps ih =>
    intro s
    by_cases hb : testBit bm[p.1] p.2 = true
    · simp only [blitFrom, if_pos hb, hcfg, hfill]
      rcases fill (pixelRect s.cfg ox oy p.1 p.2) s with ⟨e, t⟩
      cases e with
      | done => exact ih t
      | failed e => rfl
      | silent => exact congrArg (Prod.mk _) (hlatch _ _ _ t)
    · simp only [blitFrom, if_neg hb]
      exact ih s

/-- The state with the string of the DRAW in progress replaced by `str`, its program counter moved on by `k`, and
earlier results before its own. -/
def inText (str : List Char21) (k : Nat) (earlier : List Reply) (s : State) : State :=
  { s with call := s.call.map fun _ => str, pc := if s.call.isSome then k + s.pc else s.pc,
           replies := earlier ++ s.replies }

section InText

variable (str : List Char21) (k : Nat) (earlier : List Reply)

theorem inText_of_call_none {s : State} (h : s.call = none) :
    inText str k earlier s = { s with replies := earlier ++ s.replies } := by
  simp [inText, h]

theorem inText_of_call_some {s : State} {str' : List Char21} (h : s.call = some str') :
    inText str k earlier s = { s with call := some str, pc := k + s.pc, replies := earlier ++ s.replies } := by
  simp [inText, h]

theorem inText_call {s : State} {str' : List Char21} (h : s.call = some str') :
    (inText str k earlier s).call = some str := by
  rw [inText_of_call_some _ _ _ h]

theorem inText_finish (r : Reply) (s : State) :
    inText str k earlier (finish r s) = finish r (inText str k earlier s) := by
  simp [inText, finish]

theorem inText_charDone (s : State) : inText str k earlier (charDone s) = charDone (inText str k earlier s) := by
  cases hc : s.call with
  | none => rw [charDone_outside hc, charDone_outside (by simp [inText, hc]), inText_finish]
  | some str' =>
    rw [charDone_inside hc, charDone_inside (inText_call str k earlier hc)]
    simp [inText, hc, Nat.add_assoc]

/-- A fill reads neither the call nor the results (R86). -/
theorem fill_inText (r : Rect) (s : State) :
    fill r (inText str k earlier s) = Prod.map id (inText str k earlier) (fill r s) := by
  have hdraw : surfaceDraw (inText str k earlier s) = Prod.map id (inText str k earlier) (surfaceDraw s) := by
    cases ha : s.answers <;> simp [surfaceDraw, inText, ha]
  simp only [fill, hdraw]
  rcases surfaceDraw s with ⟨a, t⟩
  cases a <;> rfl

/-- What PUTC does after its fills is the same anywhere in a text (R97, R114). -/
theorem afterFills_inText (g : FillEnd × State) :
    afterFills (fun t => charDone (advance t)) (Prod.map id (inText str k earlier) g) =
      inText str k earlier (afterFills (fun t => charDone (advance t)) g) := by
  obtain ⟨e, t⟩ := g
  cases e with
  | done => exact (inText_charDone str k earlier (advance t)).symm
  | failed e => exact (inText_finish str k earlier _ t).symm
  | silent => rfl

/-- A character is rendered the same way anywhere in a text. -/
theorem render_inText (c : Char21) (s : State) :
    render c (inText str k earlier s) = inText str k earlier (render c s) := by
  by_cases ha : Accepted s.cfg c
  · rw [render_of_accepted ha, render_of_accepted (s := inText str k earlier s) ha, ← afterFills_inText,
      ← blitFrom_commutes (g := inText str k earlier) (fun _ => rfl) (fill_inText str k earlier) fun _ _ _ _ => rfl]
    rfl
  · rw [render_of_not_accepted ha, render_of_not_accepted (s := inText str k earlier s) ha]
    exact (inText_finish str k earlier _ s).symm

theorem exec_decodeChar_inText (w : Char21) (s : State) :
    exec (decodeChar w) (inText str k earlier s) = mapNext (inText str k earlier) (exec (decodeChar w) s) := by
  cases hs : isScalar w with
  | true =>
    rw [exec_decodeChar hs, exec_decodeChar hs]
    refine ite_eq_mapNext_ite (fun _ => ite_eq_mapNext_ite (fun _ => rfl) fun _ => ?_) fun _ => rfl
    rw [render_inText]
    rfl
  | false =>
    rw [exec_decodeChar_refused hs, exec_decodeChar_refused hs]
    rfl

/-- A step of a DRAW is the same in a text with the same character, or the same end, at its place. -/
theorem step_inText {s : State} (hs : NothingPending s)
    (hsame : ∀ str', s.call = some str' → str[k + s.pc]? = str'[s.pc]?) :
    step (inText str k earlier s) = mapNext (inText str k earlier) (step s) := by
  cases hw : s.waiting with
  | some cmd =>
    have hw' : (inText str k earlier s).waiting = some cmd := hw
    simp only [step, hw, hw', mapNext]
  | none =>
    have hw' : (inText str k earlier s).waiting = none := hw
    cases hc : s.call with
    | none =>
      have hc' : (inText str k earlier s).call = none := by rw [inText_of_call_none _ _ _ hc, hc]
      rw [step_of_nothing ⟨hc, hw⟩ hs.2 hs.1, step_of_nothing ⟨hc', hw'⟩ hs.2 hs.1, mapNext]
    | some str' =>
      have hc' := inText_call str k earlier hc
      have hsame' : str[(inText str k earlier s).pc]? = str'[s.pc]? := by simp [inText, hc, hsame str' hc]
      cases hg : str'[s.pc]? with
      | some w => rw [step_of_char hw hc hg, step_of_char hw' hc' (hsame'.trans hg), exec_decodeChar_inText]
      | none => rw [step_at_end hw hc hg, step_at_end hw' hc' (hsame'.trans hg), mapNext, inText_finish]

/-- A run of a DRAW is the same in a text with the same characters at the places the run comes to. -/
theorem run_inText (n : Nat) : ∀ {s : State}, NothingPending s →
    (∀ str', s.call = some str' → ∀ j, s.pc ≤ j → j < s.pc + n → str[k + j]? = str'[j]?) →
    run n (inText str k earlier s) = mapNext (inText str k earlier) (run n s) := by
  induction n with
  | zero => intro s _ _; rfl
  | succ n ih =>
    intro s hs hsame
    have hstep := step_inText str k earlier hs fun str' hc => hsame str' hc s.pc (by omega) (by omega)
    cases ht : step s with
    | next t =>
      rw [ht] at hstep
      rw [run_succ n ht, run_succ n hstep]
      obtain ⟨htp, hplace⟩ := step_of_nothingPending hs ht
      refine ih htp fun str' hct j hj hj' => ?_
      obtain ⟨hc, hpc⟩ := hplace str' hct
      exact hsame str' hc j (by omega) (by omega)
    | fault r =>
      rw [ht] at hstep
      rw [run_succ_fault n ht, run_succ_fault n hstep, mapNext]
    | refused r =>
      rw [ht] at hstep
      rw [run_succ_refused n ht, run_succ_refused n hstep, mapNext]

end InText

/-- A DRAW of `a` and the DRAW of a text that begins with `a` come to the same place after the characters of `a`. -/
theorem run_launched_append {s v : State} {a : List Char21} (b : List Char21) (hs : NothingPending s)
    (hv : run a.length (launched a s) = .next v) :
    run a.length (launched (a ++ b) s) = .next (inText (a ++ b) 0 [] v) := by
  have hsame : ∀ str, (launched a s).call = some str → ∀ j, (launched a s).pc ≤ j → j < (launched a s).pc + a.length →
      (a ++ b)[0 + j]? = str[j]? := by
    intro str hc j _ hj
    obtain rfl : a = str := Option.some.inj hc
    have hlt : j < a.length := by simpa [launched] using hj
    rw [Nat.zero_add, List.getElem?_append_left hlt]
  have hrun := run_inText (a ++ b) 0 [] a.length (drawing_launched a hs).pending hsame
  rw [hv] at hrun
  exact hrun

/-- A DRAW of `b` goes the same way in a text that ends with `b`. -/
theorem run_inText_launched {s : State} (a b : List Char21) (earlier : List Reply) (n : Nat) (hs : NothingPending s) :
    run n (inText (a ++ b) a.length earlier (launched b s)) =
      mapNext (inText (a ++ b) a.length earlier) (run n (launched b s)) := by
  refine run_inText (a ++ b) a.length earlier n (drawing_launched b hs).pending fun str hc j _ _ => ?_
  obtain rfl : b = str := Option.some.inj hc
  rw [List.getElem?_append_right (Nat.le_add_right _ _), Nat.add_sub_cancel_left]

/-- A DRAW that is run to its end is over. -/
theorem call_of_run_launched {s t : State} {str : List Char21} (hs : NothingPending s)
    (h : run (str.length + 1) (launched str s) = .next t) : t.call = none := by
  obtain ⟨v, -, -, -, -, rfl⟩ | ⟨hc, -⟩ := run_drawing_cases str.length (drawing_launched str hs) (Nat.zero_add _) h
  · rfl
  · exact hc

/-- The state with no result returned yet. -/
def withoutResults (s : State) : State := { s with replies := [] }

/-- The start of a second DRAW, after the result of the first. -/
theorem launched_finish (b : List Char21) (r : Reply) (v : State) :
    launched b (finish r v) = inText b 0 (v.replies ++ [r]) (launched b (withoutResults v)) := by
  simp [launched, finish, inText, withoutResults]

/-- The end of a first string inside the joined text is where the second one starts. -/
theorem inText_of_drawing_end {a : List Char21} {v : State} (b : List Char21) (h : Drawing a a.length v) :
    inText (a ++ b) 0 [] v = inText (a ++ b) a.length v.replies (launched b (withoutResults v)) := by
  simp [launched, inText, withoutResults, h.call, h.pc, h.tr]

/-- After the end of a DRAW its place in a text is forgotten, and a result put among the earlier ones stands before its
own. -/
theorem inText_insert_result {t : State} (h : t.call = none) (a b : List Char21) (k k' : Nat) (earlier : List Reply)
    (r : Reply) :
    inText a k (earlier ++ [r]) t =
      { inText b k' earlier t with
        replies := earlier ++ r :: (inText b k' earlier t).replies.drop earlier.length } := by
  simp [inText_of_call_none _ _ _ h]

/-- Settles O60: the first DRAW comes to the end of its string at a state `v`, and the joined DRAW to the same place;
from there the second string is drawn the same way after the first one's result and in the joined text. -/
theorem twoDrawsAreOneDrawOfTheJoinedString : Obligations.TwoDrawsAreOneDrawOfTheJoinedString := by
  intro s u a b hidle hreq hdirect hb hrun hok
  have hs : NothingPending s := ⟨hreq, hdirect⟩
  have ha := forall_isScalar_of_drawRun hidle hrun
  rw [drawRun_of_idle hidle ha] at hrun
  obtain ⟨v, hv, hend, hvw, hvr, rfl⟩ | ⟨-, x, herr⟩ :=
    run_drawing_cases a.length (drawing_launched a hs) (Nat.zero_add _) hrun
  · have hidle' : Idle (finish .ok v) := ⟨rfl, hvw⟩
    have hreplies : v.replies = s.replies := hvr
    have hvs : NothingPending (withoutResults v) := hend.pending
    have htwo := run_inText_launched [] b (s.replies ++ [.ok]) (b.length + 1) hvs
    have hone := run_inText_launched a b s.replies (b.length + 1) hvs
    rw [drawRun_of_idle hidle' hb, launched_finish, hreplies,
      drawRun_of_idle hidle (List.forall_mem_append.mpr ⟨ha, hb⟩), Nat.add_assoc,
      run_add _ _ (run_launched_append b hs hv), inText_of_drawing_end b hend, hreplies, hone]
    refine htwo.trans ?_
    cases hx : run (b.length + 1) (launched b (withoutResults v)) with
    | next t => exact congrArg _ (inText_insert_result (call_of_run_launched hvs hx) ..)
    | fault r => rfl
    | refused r => rfl
  · simp [hok, launched] at herr

end Sys2Proof.Machine

end

/-! # The exceptions of PUTC: an unsupported character, and a failed fill -/

section

namespace Sys2Proof.Machine

open Sys2Proof.Safety

/-- The word of a scalar value renders its character while no fill is outstanding (R52, R97). -/
theorem exec_decodeChar_eq_render {c : Char21} {s : State} (hs : isScalar c = true) (hw : s.waiting = none) :
    exec (decodeChar c) s = .next (render c s) :=
  (exec_decodeChar hs s).trans (putc_of_scalar hs hw)

/-- Settles O50: the lookup of a character that is not accepted raises, and nothing of the sequence comes before it. -/
theorem putcRaisesUnsupportedCharacter : Obligations.PutcRaisesUnsupportedCharacter := by
  intro s c hw hs hA
  rw [exec_decodeChar_eq_render hs hw, render_of_not_accepted hA, raise_eq_raised]

/-- Settles O51: the blit of an accepted character leaves at its failed fill, and the raise skips the advance. -/
theorem putcRaisesSurfaceWriteFailure : Obligations.PutcRaisesSurfaceWriteFailure := by
  intro s c pre post bad e rest hw hs hA hf ha
  rw [exec_decodeChar_eq_render hs hw, render_of_err hA hf ha]

end Sys2Proof.Machine

end

/-! # Reset and hazards: a surface that never answers, and what a block in use refuses -/

section

namespace Sys2Proof.Machine

open Sys2Proof.Safety

/-! ## What waits for an occupied block (R27, R129) -/

/-- A block with a fill outstanding takes no further step (R135, U9). -/
theorem step_of_waiting {s : State} {cmd : FillCmd} (h : s.waiting = some cmd) : step s = .fault .surfaceSilent := by
  simp only [step, h]

theorem busy_of_call {s : State} {str : List Char21} (h : s.call = some str) : s.busy = true := by
  simp [State.busy, h]

theorem busy_of_waiting {s : State} {cmd : FillCmd} (h : s.waiting = some cmd) : s.busy = true := by
  simp [State.busy, h]

/-- A block in use refuses the three operations that only an idle block takes (R129, U14). -/
theorem exec_host_refused_of_busy {s : State} (h : s.busy = true) :
    (∀ x y, exec (.init x y) s = .refused .blockBusy) ∧ (∀ str, exec (.draw str) s = .refused .blockBusy) ∧
      exec .getpos s = .refused .blockBusy :=
  ⟨fun _ _ => if_pos h, fun _ => if_pos h, if_pos h⟩

/-- Settles O46: a DRAW in progress occupies the block. -/
theorem hostOperationsAreRefusedDuringADraw : Obligations.HostOperationsAreRefusedDuringADraw :=
  fun _ _ hc => exec_host_refused_of_busy (busy_of_call hc)

/-- A character is not started while a fill is outstanding (R27). -/
theorem exec_decodeChar_of_waiting {c : Char21} {s : State} {cmd : FillCmd} (hs : isScalar c = true)
    (h : s.waiting = some cmd) : exec (decodeChar c) s = .refused .blockBusy := by
  simp only [exec_decodeChar hs, putc, hs, h, Option.isSome_some, if_true]

/-! ## A fill that is never answered (R135, U9) -/

/-- A corner that is no coordinate counts as its low COORD_W bits (log 23), and the one fill stays outstanding. -/
theorem exec_bcFill_of_never {s : State} {rest : List Answer} (x y : Coord) (w h : Nat) (hw : s.waiting = none)
    (ha : s.answers = .never :: rest) :
    exec (.bcFill x y w h) s =
      .next { hung s [] { rect := ⟨moved s.cfg x 0, moved s.cfg y 0, w, h⟩, col := s.cfg.fg } rest with
              tr := { s.tr with rect := some ⟨moved s.cfg x 0, moved s.cfg y 0, w, h⟩ } } := by
  obtain ⟨hx, hy, -, -, hwide, -⟩ := wideOperandsCountAsTheirLowBits s x y
  rw [hwide, exec_bcFill hw hx hy (fill_of_never _ ha)]
  rfl

/-- Settles O13: the silent fill stays outstanding, and an outstanding fill occupies the block. -/
theorem silentSurfaceHangsTheBlock : Obligations.SilentSurfaceHangsTheBlock := by
  refine ⟨fun s x y w h rest hw ha => ?_, fun s hw => ?_⟩
  · exact ⟨_, exec_bcFill_of_never x y w h hw ha, rfl, rfl, rfl, rfl, step_of_waiting rfl⟩
  · obtain ⟨cmd, hcmd⟩ := Option.ne_none_iff_exists'.mp hw
    have hsome : s.waiting.isSome = true := Option.isSome_iff_ne_none.mpr hw
    obtain ⟨hinit, hdraw, hgetpos⟩ := exec_host_refused_of_busy (busy_of_waiting hcmd)
    exact ⟨step_of_waiting hcmd, hinit, hdraw, hgetpos, fun c hs => exec_decodeChar_of_waiting hs hcmd,
      fun _ _ _ _ => if_pos hsome, fun _ _ _ => if_pos hsome, if_pos hsome⟩

/-- Settles O39: the loop hangs at the silent fill and leaves the bitmap latched, and nothing follows. -/
theorem blitHangsAtASilentFill : Obligations.BlitHangsAtASilentFill := by
  intro s bm ox oy pre post bad rest hw hx hy hf ha
  rw [← pixelCmds_scan] at hf
  obtain ⟨tr, hrect, hblit⟩ := blitFrom_of_never bm ox oy scan
    (s := latch { s.tr with bm := some bm, ox := some ox, oy := some oy } s) hf ha
  exact ⟨tr, blitFrom_bm bm ox oy scan hblit, hrect, exec_bcBlit hw hx hy hblit, step_of_waiting rfl⟩

/-- Settles O52: the blit of the character hangs at its silent fill, so neither the advance nor a result follows. -/
theorem putcHangsAtASilentFill : Obligations.PutcHangsAtASilentFill := by
  intro s c pre post bad rest hw hs hA hf ha
  obtain ⟨tr, hrect, hrender⟩ := render_of_never hA hf ha
  exact ⟨tr, hrect, by rw [exec_decodeChar_eq_render hs hw, hrender], step_of_waiting rfl⟩

end Sys2Proof.Machine

end

/-! # The bounds check with no character being looked up (R72) -/

section

namespace Sys2Proof.Machine

open Sys2Proof.Safety

/-- GI.BOUNDS of an offset whose last read is outside the atlas, for any latched character: with none the payload is the
free character of the configuration (log 16). -/
theorem exec_giBounds_of_outside {s : State} {off : Offset} (hout : s.cfg.atlasLen.val ≤ off.toNat + 56) :
    exec (.giBounds off) s = .next (raised s (.unsupportedCharacter (s.tr.ch.getD Config.strayCharacter))) := by
  have hfails : ¬ boundsOk s.cfg.atlasLen off = true := mt boundsOk_iff.mp (by omega)
  rw [exec, execGiBounds, if_neg hfails, raise_eq_raised]

/-- Settles O22: the check fails, and the payload is the free character. -/
theorem boundsRaisesOutsideALookupToo : Obligations.BoundsRaisesOutsideALookupToo := by
  intro s off hch hout
  refine ⟨Config.strayCharacter, ?_⟩
  rw [exec_giBounds_of_outside hout, hch, Option.getD_none]

end Sys2Proof.Machine

end
